-- ==== Sys2Proof/Word.lean ====
section
/-! DEFINITION. The word types of the core: bytes, commands, symbol codes and codewords, and requester identities. -/

namespace Sys2Proof

/-- One byte: a field of a command or a fragment word of the profile ROM (30_encoding.md R71, R75). -/
abbrev Byte := BitVec 8

/-- A command in `CMD` format, packed: the first byte in bits [31:24] (30_encoding.md R71). -/
abbrev Command := BitVec 32

/-- A symbol in `SYM` format (30_encoding.md R74). -/
abbrev SymCode := BitVec 2

/-- A codeword in `CW` format: 12 symbols, the first transmitted most significant (30_encoding.md R76). -/
abbrev Codeword := BitVec 24

/-- The identity of a requester, an element of `REQUESTERS` (00_scope.md R6). An identity is only a name
(60_exceptions.md R232), so a natural number serves. -/
abbrev Requester := Nat

end Sys2Proof
end

