-- ==== Sys2Proof/Syntax.lean ====
section
/-! DEFINITION. The instructions of the core: one constructor per row of spec/opcode_table.json, and the three formats
a row's code can have. -/

namespace Sys2Proof

/-- The encoder kinds, the two profiles of the core (00_scope.md R12; 40_registry_validate.md R100). -/
inductive Kind where
  | pt2260
  | pt2262
  deriving DecidableEq, Repr

/-- The three fragment tables of a profile (20_memory.md R51, R55). -/
inductive Table where
  | groups
  | sockets
  | dataCodes
  deriving DecidableEq, Repr

/-- The rows of spec/opcode_table.json. The three `tx` rows are commands a requester submits; the `sym` rows are the
symbol codes the sequencer reads from `CW`; `sync` is what the sequencer inserts after the last symbol. -/
inductive Instr where
  /-- `TX.PT2260` (R105): its `KIND` byte is `KIND_PT2260`. -/
  | txPT2260 (group socket data : Byte)
  /-- `TX.PT2262` (R105): its `KIND` byte is `KIND_PT2262`. -/
  | txPT2262 (group socket data : Byte)
  /-- `TX.UNKNOWN` (R221): its `KIND` byte is neither kind code. -/
  | txUnknown (kind group socket data : Byte)
  /-- `SYM.0` (R141). -/
  | sym0
  /-- `SYM.1` (R142). -/
  | sym1
  /-- `SYM.F` (R143). -/
  | symF
  /-- `SYM.RSV` (R145). -/
  | symRsv
  /-- `SYNC` (R144): it has no bit pattern. -/
  | sync
  deriving DecidableEq, Repr

/-- What the core decodes: a 32-bit command, a 2-bit symbol code of `CW`, or the sync slot, which has no bits
(30_encoding.md R70, R71, R74; opcode_table.json, formats CMD, SYM and SEQ). -/
inductive Code where
  | cmd (w : Command)
  | sym (c : SymCode)
  | syncSlot
  deriving DecidableEq, Repr

end Sys2Proof
end

