-- ==== Sys2Proof/Machine/Rom.lean ====
section
/-! DEFINITION. The profile ROM: the core's only memory (20_memory.md). It is read-only: there is no write. -/

namespace Sys2Proof.Machine

/-- Memory as a list of cells, addresses strictly rising. It holds the profile ROM of 20_memory.md R55. -/
abbrev Memory := List Host.Cell

/-- What an address that is not listed reads as: nothing. Such an address "holds no fragment" (20_memory.md R55). -/
def Memory.unlisted : Option Byte := none

/-- Read one word. -/
def Memory.read : Memory → Nat → Option Byte
  | [], _ => Memory.unlisted
  | c :: m, a => if c.1 = a then some c.2 else Memory.read m a

/-- The canonical form: addresses strictly rising. No entry can equal what an unlisted address reads as. -/
def Memory.wf : Memory → Bool
  | [] => true
  | [_] => true
  | c :: d :: m => decide (c.1 < d.1) && Memory.wf (d :: m)

/-- `MemRead(addr, n)`: `n` fragment words from `addr` (00_scope.md R9). -/
def memRead (m : Memory) (addr : Nat) : Nat → Option (List Byte)
  | 0 => some []
  | n + 1 =>
    match m.read addr, memRead m (addr + 1) n with
    | some w, some ws => some (w :: ws)
    | _, _ => none

/-- `kidx` (20_memory.md R55): the internal index of a kind, whatever its command code. -/
def kidx : Kind → BitVec 1
  | .pt2260 => 0#1
  | .pt2262 => 1#1

/-- `t[1:0]` (20_memory.md R55). `t = 3` is unused. -/
def tableCode : Table → BitVec 2
  | .groups => 0#2
  | .sockets => 1#2
  | .dataCodes => 2#2

/-- `romaddr(k, t, i) = {kidx(k)[0], t[1:0], i[3:0]}` (20_memory.md R55). -/
def romaddr (k : Kind) (t : Table) (i : BitVec 4) : BitVec 7 := kidx k ++ tableCode t ++ i

/-- `NG(k)`, `NS(k)` and `ND(k)` (00_scope.md R6; 40_registry_validate.md R103). -/
def tableLen : Kind → Table → Nat
  | .pt2260, .groups => 4
  | .pt2260, .sockets => 3
  | .pt2260, .dataCodes => 2
  | .pt2262, .groups => 16
  | .pt2262, .sockets => 4
  | .pt2262, .dataCodes => 2

/-- `RomRead(k, t, i) = MemRead(romaddr(k, t, i), 1)` (00_scope.md R9), for an index `i` of 4 bits; an index above 15
has no address, so it names no fragment (20_memory.md R55). -/
def romRead (m : Memory) (k : Kind) (t : Table) (i : Byte) : Option Byte :=
  if i.toNat < 16 then m.read (romaddr k t (i.setWidth 4)).toNat else Memory.unlisted

/-- Symbol `j` of a fragment word: bits `[7-2j : 6-2j]` (30_encoding.md R75). -/
def fragSymbol (frag : Byte) (j : Nat) : SymCode := frag.extractLsb' (6 - 2 * j) 2

/-- The symbols of a fragment, first transmitted first. A word of 8 bits holds exactly `FRAG_LEN` = 4. -/
def fragSymbols (frag : Byte) : List SymCode := [fragSymbol frag 0, fragSymbol frag 1, fragSymbol frag 2, fragSymbol frag 3]

/-- `CW_LEN` = `3 * FRAG_LEN` (00_scope.md R6). -/
def cwLen : Nat := 12

/-- Symbol `CW[j]`: bits `[23-2j : 22-2j]` of the codeword (30_encoding.md R76). -/
def cwSymbol (cw : Codeword) (j : Nat) : SymCode := cw.extractLsb' (22 - 2 * j) 2

/-- The addresses of one table, in order. -/
def tableAddresses (k : Kind) (t : Table) : List Nat :=
  (List.range (tableLen k t)).map fun i => (romaddr k t (BitVec.ofNat 4 i)).toNat

/-- The addresses that hold a fragment, in rising order (20_memory.md R51, R55). -/
def romAddresses : List Nat :=
  tableAddresses .pt2260 .groups ++ tableAddresses .pt2260 .sockets ++ tableAddresses .pt2260 .dataCodes ++
  tableAddresses .pt2262 .groups ++ tableAddresses .pt2262 .sockets ++ tableAddresses .pt2262 .dataCodes

/-- The words a ROM holds at the addresses of one table. -/
def tableWords (m : Memory) (k : Kind) (t : Table) : List Byte := (tableAddresses k t).filterMap m.read

end Sys2Proof.Machine
end

