-- ==== Sys2Proof/Config.lean ====
section
/-! DEFINITION. The configuration of a core (00_scope.md R6), fixed at construction, and the model's free values. A free
value is an opaque constant: no proof can see what it is. -/

namespace Sys2Proof

/-- `BUSY_POLICY`: what a submit does while a transmission runs (00_scope.md R6). -/
inductive BusyPolicy where
  | reject
  | block
  deriving DecidableEq, Repr

/-- The result of one `Drive`, a draw of the platform (10_state.md R27). -/
inductive DriveResult where
  | ok
  | fail
  deriving DecidableEq, Repr, Inhabited

/-- The parameters of 00_scope.md R6. The profile ROM holds the fragment tables `GROUPS`, `SOCKETS` and `DATA`.
`requesters` is read by membership alone. No rule reads `tolUs` (43_waveform_emitter.md R163). -/
structure Config where
  kindPT2260 : Byte
  kindPT2262 : Byte
  pUs : Nat
  repeatCount : Nat
  busyPolicy : BusyPolicy
  requesters : List Requester
  tolUs : Nat
  rom : Machine.Memory
  deriving DecidableEq, Repr

/-- The 25 `OPEN` fragments of 20_memory.md R51, by the spec's names. -/
structure OpenCells where
  g2260_1 : Byte
  g2260_2 : Byte
  g2260_3 : Byte
  s2260_1 : Byte
  s2260_2 : Byte
  d2260_0 : Byte
  g2262_0 : Byte
  g2262_1 : Byte
  g2262_2 : Byte
  g2262_3 : Byte
  g2262_4 : Byte
  g2262_5 : Byte
  g2262_6 : Byte
  g2262_7 : Byte
  g2262_8 : Byte
  g2262_9 : Byte
  g2262_10 : Byte
  g2262_11 : Byte
  g2262_12 : Byte
  g2262_13 : Byte
  g2262_14 : Byte
  s2262_0 : Byte
  s2262_1 : Byte
  s2262_2 : Byte
  d2262_1 : Byte
  deriving DecidableEq, Repr

/-- The cells of PT2260 (20_memory.md R51). The known ones are "1FFF", "1FF0" and "0010" in `FRAG` format
(30_encoding.md R75). -/
def romImage2260 (o : OpenCells) : Machine.Memory :=
  [(0x00, 0x6A), (0x01, o.g2260_1), (0x02, o.g2260_2), (0x03, o.g2260_3),
   (0x10, 0x68), (0x11, o.s2260_1), (0x12, o.s2260_2),
   (0x20, o.d2260_0), (0x21, 0x04)]

/-- The group cells of PT2262. The known one is "0000". -/
def romImage2262Groups (o : OpenCells) : Machine.Memory :=
  [(0x40, o.g2262_0), (0x41, o.g2262_1), (0x42, o.g2262_2), (0x43, o.g2262_3),
   (0x44, o.g2262_4), (0x45, o.g2262_5), (0x46, o.g2262_6), (0x47, o.g2262_7),
   (0x48, o.g2262_8), (0x49, o.g2262_9), (0x4A, o.g2262_10), (0x4B, o.g2262_11),
   (0x4C, o.g2262_12), (0x4D, o.g2262_13), (0x4E, o.g2262_14), (0x4F, 0x00)]

/-- The socket and data cells of PT2262. The known ones are "FFFF" and "FFF0". -/
def romImage2262Rest (o : OpenCells) : Machine.Memory :=
  [(0x50, o.s2262_0), (0x51, o.s2262_1), (0x52, o.s2262_2), (0x53, 0xAA),
   (0x60, 0xA8), (0x61, o.d2262_1)]

/-- The profile ROM with the `OPEN` cells filled in (20_memory.md R51, at the addresses of R55). -/
def romImage (o : OpenCells) : Machine.Memory := romImage2260 o ++ romImage2262Groups o ++ romImage2262Rest o

/-- 20_memory.md R52: the symbols of every word are `0`, `1` or `F`. -/
def alphabetOk (m : Machine.Memory) : Bool := m.all fun c => (Machine.fragSymbols c.2).all fun s => s != 3#2

/-- 20_memory.md R53: within each table of each kind, the fragments are pairwise distinct. -/
def distinctOk (m : Machine.Memory) : Bool :=
  [Kind.pt2260, Kind.pt2262].all fun k => [Table.groups, Table.sockets, Table.dataCodes].all fun t =>
    decide (Machine.tableWords m k t).Nodup

/-- `OPEN` cells that satisfy 20_memory.md R52 and R53. The values named here only show that such cells exist: they are
used in tests alone, and no proof can see them behind the opaque constant below. -/
structure LegalOpenCells where
  cells : OpenCells :=
    { g2260_1 := 0x00, g2260_2 := 0x01, g2260_3 := 0x02, s2260_1 := 0x00, s2260_2 := 0x01, d2260_0 := 0x00,
      g2262_0 := 0x01, g2262_1 := 0x02, g2262_2 := 0x04, g2262_3 := 0x05, g2262_4 := 0x06, g2262_5 := 0x08,
      g2262_6 := 0x09, g2262_7 := 0x0A, g2262_8 := 0x10, g2262_9 := 0x11, g2262_10 := 0x12, g2262_11 := 0x14,
      g2262_12 := 0x15, g2262_13 := 0x16, g2262_14 := 0x18, s2262_0 := 0x00, s2262_1 := 0x01, s2262_2 := 0x02,
      d2262_1 := 0x00 }
  legal : (alphabetOk (romImage cells) && distinctOk (romImage cells)) = true := by decide
  deriving Inhabited

/-- Kind codes that satisfy 30_encoding.md R73. The values named here only show that such codes exist: no proof can see
them behind the opaque constant below. -/
structure LegalKindCodes where
  pt2260 : Byte := 0x00
  pt2262 : Byte := 0x01
  legal : (pt2260 != pt2262 && pt2260 != 0x63 && pt2262 != 0x63) = true := by decide
  deriving Inhabited

namespace Config

/-- `KIND_PT2260` and `KIND_PT2262` of the configuration that `State.reset` starts with (00_scope.md R7; log 2). -/
opaque freeKindCodes : LegalKindCodes

/-- The `OPEN` fragments of the configuration that `State.reset` starts with (00_scope.md R7; log 2). -/
opaque freeCells : LegalOpenCells

/-- `TOL_US` of that configuration (00_scope.md R6; log 2). -/
opaque freeTolUs : Nat

/-- The requesters of that configuration beside requester 0 (00_scope.md R6; log 2). -/
opaque freeRequesters : List Requester

/-- The platform's draw number `n` (43_waveform_emitter.md R164): under no law (log 3). -/
opaque freeDraw : Nat → DriveResult

/-- The changes of `GRANT` before the core looks at it for the `n`-th time (10_state.md R27): left open (log 6). -/
opaque freeGrants : Nat → List Bool

/-- Choice number `n` among the held commands (44_transmitter.md R188): left open (log 4). -/
opaque freeChoice : Nat → Nat

/-- The configuration `State.reset` starts with: the values 00_scope.md R6 gives for this hardware, and the free values
above for the `OPEN` parameters (R7; log 2). -/
def forReset : Config where
  kindPT2260 := freeKindCodes.pt2260
  kindPT2262 := freeKindCodes.pt2262
  pUs := 350
  repeatCount := 4
  busyPolicy := .reject
  requesters := 0 :: freeRequesters
  tolUs := freeTolUs
  rom := romImage freeCells.cells

/-- The same configuration with the kind codes that opcode_table.json shows, the defaults of 92_eei_decisions.md D4. Only
the reading and the placing of the table's own words use it (log 17). -/
def withTableKindCodes (c : Config) : Config := { c with kindPT2260 := 0x00, kindPT2262 := 0x01 }

end Config

end Sys2Proof
end

