-- ==== Sys2Proof/WellFormed.lean ====
section
/-! DEFINITION. Well-formed configurations, by the named checks of 70_reset_and_hazards.md R263, and well-formed
instructions. -/

namespace Sys2Proof

/-- The named checks of 70_reset_and_hazards.md R263. -/
inductive ConfigCheck where
  /-- `frag_len` -/
  | fragLen
  /-- `alphabet` -/
  | alphabet
  /-- `sizes` -/
  | sizes
  /-- `known_cells` -/
  | knownCells
  /-- `distinct` -/
  | distinct
  /-- `kind_codes` -/
  | kindCodes
  /-- `repeat` -/
  | repeatRange
  /-- `pulse_len` -/
  | pulseLen
  /-- `requesters` -/
  | requesters
  deriving DecidableEq, Repr

/-- One check of 70_reset_and_hazards.md R263. `fragLen` holds of every ROM, since a word of 8 bits holds exactly four
symbols (log 18). `sizes` says which cells the ROM holds, in address order. -/
def Config.passes (c : Config) : ConfigCheck → Bool
  | .fragLen => c.rom.all fun cell => (Machine.fragSymbols cell.2).length == 4
  | .alphabet => alphabetOk c.rom
  | .sizes => c.rom.map Prod.fst == Machine.romAddresses
  | .knownCells =>
    c.rom.read 0x00 == some 0x6A && c.rom.read 0x10 == some 0x68 && c.rom.read 0x21 == some 0x04 &&
    c.rom.read 0x4F == some 0x00 && c.rom.read 0x53 == some 0xAA && c.rom.read 0x60 == some 0xA8
  | .distinct => distinctOk c.rom
  | .kindCodes => c.kindPT2260 != c.kindPT2262 && c.kindPT2260 != 0x63 && c.kindPT2262 != 0x63
  | .repeatRange => decide (1 ≤ c.repeatCount) && decide (c.repeatCount ≤ 255)
  | .pulseLen => decide (1 ≤ c.pUs)
  | .requesters => !c.requesters.isEmpty

/-- The checks in the order of the table. -/
def ConfigCheck.all : List ConfigCheck :=
  [.fragLen, .alphabet, .sizes, .knownCells, .distinct, .kindCodes, .repeatRange, .pulseLen, .requesters]

/-- The first check a configuration fails. -/
def Config.firstFailure (c : Config) : Option ConfigCheck := ConfigCheck.all.find? fun k => !c.passes k

/-- A well-formed configuration: every named check holds (70_reset_and_hazards.md R263). -/
def Config.wf (c : Config) : Bool := ConfigCheck.all.all c.passes

/-- A well-formed instruction under a configuration: a `TX.UNKNOWN` has a `KIND` byte that is neither kind code
(opcode_table.json). Every operand byte of the other rows is well formed: an index outside its table is answered
`OutOfRange` (30_encoding.md R79). -/
def Instr.wf (c : Config) : Instr → Bool
  | .txPT2260 _ _ _ => true
  | .txPT2262 _ _ _ => true
  | .txUnknown kind _ _ _ => kind != c.kindPT2260 && kind != c.kindPT2262
  | .sym0 => true
  | .sym1 => true
  | .symF => true
  | .symRsv => true
  | .sync => true

end Sys2Proof
end

