-- ==== Sys2Proof/Decode.lean ====
section
/-! DEFINITION. Decoding and encoding (30_encoding.md). A command decodes under a configuration, because the two kind
codes are parameters (R73). -/

namespace Sys2Proof

/-- The `KIND` field, bits [31:24] (R71). -/
def cmdKind (w : Command) : Byte := w.extractLsb' 24 8

/-- The `GROUP` field, bits [23:16] (R71). -/
def cmdGroup (w : Command) : Byte := w.extractLsb' 16 8

/-- The `SOCKET` field, bits [15:8] (R71). -/
def cmdSocket (w : Command) : Byte := w.extractLsb' 8 8

/-- The `DATA` field, bits [7:0] (R71). -/
def cmdData (w : Command) : Byte := w.extractLsb' 0 8

/-- The four bytes in arrival order packed into one word, first byte most significant (R71). -/
def packCommand (kind group socket data : Byte) : Command := kind ++ group ++ socket ++ data

/-- `LOOKUP` (40_registry_validate.md R100): the profile a kind code selects, by equality alone (30_encoding.md R73). -/
def lookup (c : Config) (kindcode : Byte) : Option Kind :=
  if kindcode = c.kindPT2260 then some .pt2260
  else if kindcode = c.kindPT2262 then some .pt2262
  else none

/-- Decode a command: total (R82). -/
def decodeCommand (c : Config) (w : Command) : Instr :=
  match lookup c (cmdKind w) with
  | some .pt2260 => .txPT2260 (cmdGroup w) (cmdSocket w) (cmdData w)
  | some .pt2262 => .txPT2262 (cmdGroup w) (cmdSocket w) (cmdData w)
  | none => .txUnknown (cmdKind w) (cmdGroup w) (cmdSocket w) (cmdData w)

/-- Decode a symbol code: the four rows of R74. -/
def decodeSymbol (s : SymCode) : Instr :=
  if s = 0b00#2 then .sym0
  else if s = 0b01#2 then .sym1
  else if s = 0b10#2 then .symF
  else .symRsv

/-- The decoder (R82). -/
def decode (c : Config) : Code → Instr
  | .cmd w => decodeCommand c w
  | .sym s => decodeSymbol s
  | .syncSlot => .sync

/-- Why a run of bytes is no code. -/
inductive DecodeReject where
  /-- A command is exactly 4 bytes (R80; 20_memory.md R57). -/
  | notFourBytes
  /-- A symbol code has 2 bits (R74): the byte that holds it has a bit set above them. -/
  | notTwoBits
  deriving DecidableEq, Repr

/-- Decode a byte stream as a command, bytes in arrival order (R71, R80). -/
def decodeBytes (c : Config) : List Byte → Except DecodeReject Instr
  | [kind, group, socket, data] => .ok (decode c (.cmd (packCommand kind group socket data)))
  | _ => .error .notFourBytes

/-- Decode a symbol code that stands in the low bits of a byte. -/
def decodeSymbolByte (c : Config) (b : Byte) : Except DecodeReject Instr :=
  if b.toNat < 4 then .ok (decode c (.sym (b.setWidth 2))) else .error .notTwoBits

/-- The encoder: the code of an instruction under a configuration. -/
def encode (c : Config) : Instr → Code
  | .txPT2260 g s d => .cmd (packCommand c.kindPT2260 g s d)
  | .txPT2262 g s d => .cmd (packCommand c.kindPT2262 g s d)
  | .txUnknown k g s d => .cmd (packCommand k g s d)
  | .sym0 => .sym 0b00#2
  | .sym1 => .sym 0b01#2
  | .symF => .sym 0b10#2
  | .symRsv => .sym 0b11#2
  | .sync => .syncSlot

/-- The four bytes of a command word as they arrive, bits [31:24] first (R71). -/
def commandBytes (w : Command) : List Byte := [cmdKind w, cmdGroup w, cmdSocket w, cmdData w]

/-- What a decoder answered, as an option. -/
def decodedInstr : Except DecodeReject Instr → Option Instr
  | .ok i => some i
  | .error _ => none

/-- The instruction of a word of opcode_table.json: 32 bits are a command (under the table's kind codes, which are the
defaults), up to 8 a symbol code, and none the sync slot (log 17). -/
def decodeTableWord (nbits w : Nat) : Option Instr :=
  if nbits = 0 then some (decode Config.forReset.withTableKindCodes .syncSlot)
  else if nbits ≤ 8 then decodedInstr (decodeSymbolByte Config.forReset.withTableKindCodes (BitVec.ofNat 8 w))
  else if nbits = 32 then decodedInstr (decodeBytes Config.forReset.withTableKindCodes (commandBytes (BitVec.ofNat 32 w)))
  else none

end Sys2Proof
end

