-- ==== Sys2Proof/Machine/State.lean ====
section
/-! DEFINITION. The state of the core (10_state.md), the reasons a step can stop, and the state after reset. -/

namespace Sys2Proof.Machine

/-- `TX_STATE` (10_state.md R21). -/
inductive TxState where
  | idle
  | transmitting
  deriving DecidableEq, Repr

/-- A level the core can command (43_waveform_emitter.md R164); also `SEQ.phase` (10_state.md R25). -/
inductive Level where
  | low
  | high
  deriving DecidableEq, Repr

/-- The values of `LINE` (10_state.md R22). -/
inductive Line where
  | low
  | high
  | unknown
  deriving DecidableEq, Repr

/-- `REQ` (10_state.md R23). -/
structure Request where
  kind : Byte
  group : Byte
  socket : Byte
  data : Byte
  deriving DecidableEq, Repr

/-- `SEQ` (10_state.md R25): repetition, codeword position (12 is the sync slot), pair within the symbol, and the half
of the pair. -/
structure SeqPos where
  rep : Nat
  pos : Nat
  pair : Nat
  phase : Level
  deriving DecidableEq, Repr

/-- One entry of `TRACE`: an interval of constant level and its length in µs (00_scope.md R12). -/
structure Segment where
  level : Level
  us : Nat
  deriving DecidableEq, Repr

/-- The response codes by name (30_encoding.md R78). -/
inductive Result where
  | ok
  | unknownEncoder
  | outOfRange
  | resourceUnavailable
  | hardwareFault
  deriving DecidableEq, Repr

/-- The registers that hold no value while `Idle` (10_state.md R37). -/
inductive Register where
  | req
  | cw
  | seq
  | owner
  deriving DecidableEq, Repr

/-- What an agent does next, or a reset (00_scope.md R14; log 9). The platform has no event: it is no agent with steps of
its own. -/
inductive Event where
  /-- Requester `r` presents `cmd` at the command input (40_registry_validate.md R105). -/
  | submit (r : Requester) (cmd : Command)
  /-- The sequencer takes one step (44_transmitter.md R193). -/
  | sequencer
  /-- The core is reset between two steps of the sequencer (70_reset_and_hazards.md R260). -/
  | reset
  /-- The core is reset inside the hold of the sequencer's next step (70_reset_and_hazards.md R261). -/
  | resetInHold
  deriving DecidableEq, Repr

/-- The platform's inputs (10_state.md R27): oracle values, which the platform supplies whenever the core looks at them and
not by steps of its own (00_scope.md R14). -/
structure Platform where
  /-- `GRANT` as the core last looked at it. -/
  grant : Bool
  /-- The changes of `GRANT` before each of the core's next looks at it, in order; when the list is empty they are
  `Config.freeGrants` (log 6). The core looks at `GRANT` when it samples it and at each `Drive`, so a change can fall
  between two steps or inside any hold, the last one of a transmission included (log 7). -/
  grants : List (List Bool)
  grantCount : Nat
  /-- The next drive results; when the list is empty they are `Config.freeDraw` (log 3). -/
  draws : List DriveResult
  drawCount : Nat
  deriving DecidableEq, Repr

/-- The state: the tuple of 10_state.md R20, the platform's inputs (R27), the configuration (00_scope.md R6), and the
fields that hold the agents' moves. -/
structure State where
  /-- The configuration and the profile ROM: written by no operation (00_scope.md R6; 20_memory.md R54). -/
  config : Config
  txState : TxState
  line : Line
  /-- `REQ`, `CW`, `SEQ` and `OWNER` hold a value only while `Transmitting` (10_state.md R37). -/
  req : Option Request
  cw : Option Codeword
  seq : Option SeqPos
  owner : Option Requester
  /-- `WAIT`, a set of pairs, kept in strictly rising order (10_state.md R28; log 16). -/
  wait : List (Requester × Command)
  /-- `TRACE`, in emission order (10_state.md R29). -/
  trace : List Segment
  /-- `RESP`, in delivery order (10_state.md R29). -/
  resp : List (Requester × Result)
  /-- `GRANT` and the drive results, inputs of the platform (10_state.md R27). -/
  platform : Platform
  /-- Model's own: the requester whose command stands at the command input (log 15). -/
  submitter : Requester
  /-- Model's own: the submits so far, in order (44_transmitter.md R192; log 15). -/
  subs : List (Requester × Command)
  /-- Model's own: what the agents do next; when it is empty the sequencer moves. The model's choice (DESIGN CHOICE,
  log 9): the list is finite, so a run in which a requester submits for ever, and a held requester is starved for ever
  (44_transmitter.md R192), is no run of the model; every finite part of it is one. -/
  events : List Event
  /-- Model's own: the next choices among held commands; when it is empty they are `Config.freeChoice` (log 4). -/
  choices : List Nat
  choiceCount : Nat
  deriving DecidableEq, Repr

/-- Why the machine stops. Both faults are reads the spec calls a fault (93_implementation_defined.md), and no state
that is reached from a well-formed construction raises one. -/
inductive Fault where
  /-- A register that holds no value was read (10_state.md R37). Raised by the sequencer's instructions, FINISH,
  FAULT_EXIT and the fetch. Safe. -/
  | valueless (r : Register)
  /-- A ROM cell that holds no fragment was read (20_memory.md R55). Raised by BUILD in ACCEPT. Safe. -/
  | romCellAbsent
  deriving DecidableEq, Repr

/-- What the model gives no meaning. -/
inductive Refusal where
  /-- An instruction without a meaning yet. Raised by exec alone. Safe. -/
  | notModelled (mnemonic : String)
  /-- A submit by an identity outside `REQUESTERS`, which 40_registry_validate.md R105 does not admit as an operand.
  Raised by the delivery of a submit. Safe (log 12). -/
  | notARequester (r : Requester)
  /-- An ill-formed configuration, by the check it fails (70_reset_and_hazards.md R263). Raised by `construct`. Safe. -/
  | illFormedConfig (check : ConfigCheck)
  deriving DecidableEq, Repr

/-- `LINE` after a `Drive` of a level (43_waveform_emitter.md R164). -/
def lineAfter (l : Level) : DriveResult → Line
  | .ok =>
    match l with
    | .low => .low
    | .high => .high
  | .fail => .unknown

/-- The state right after reset of a core with configuration `c` whose reset drive gave `res` and consumed draw number
0 (10_state.md R36; 70_reset_and_hazards.md R260, R262). -/
def State.resetOf (c : Config) (res : DriveResult) : State where
  config := c
  txState := .idle
  line := lineAfter .low res
  req := none
  cw := none
  seq := none
  owner := none
  wait := []
  trace := []
  resp := []
  platform := { grant := true, grants := [], grantCount := 0, draws := [], drawCount := 1 }
  submitter := 0
  subs := []
  events := []
  choices := []
  choiceCount := 0

/-- The machine right after reset (logs 2, 5, 6). -/
def State.reset : State := State.resetOf Config.forReset (Config.freeDraw 0)

end Sys2Proof.Machine
end

