-- ==== Sys2Proof/Machine/Flags.lean ====
section
/-! DEFINITION. The core has no flags and no condition codes (10_state.md R32): no operation computes one. What reports
an outcome instead: the response codes (30_encoding.md R78) and the output `BUSY` (10_state.md R33). -/

namespace Sys2Proof.Machine

/-- The 3-bit `RESULT` code of a response (30_encoding.md R78). Codes 5 to 7 are never produced. -/
def Result.code : Result → BitVec 3
  | .ok => 0#3
  | .unknownEncoder => 1#3
  | .outOfRange => 2#3
  | .resourceUnavailable => 3#3
  | .hardwareFault => 4#3

/-- The output `BUSY` (10_state.md R33): 1 iff `TX_STATE = Transmitting`. -/
def State.busy (s : State) : BitVec 1 :=
  match s.txState with
  | .idle => 0#1
  | .transmitting => 1#1

end Sys2Proof.Machine
end

