-- ==== Sys2Proof/Machine/Operands.lean ====
section
/-! DEFINITION. The operands of the instructions: the index bounds and the fragments a command selects, and the pulse
pairs a symbol stands for. -/

namespace Sys2Proof.Machine

/-- `VALIDATE(prof, g, s, d)` (40_registry_validate.md R102): true when every index is below its table's length, an
unsigned comparison. False is `OutOfRange`. -/
def validate (k : Kind) (g s d : Byte) : Bool :=
  decide (g.toNat < tableLen k .groups) && decide (s.toNat < tableLen k .sockets) && decide (d.toNat < tableLen k .dataCodes)

/-- `BUILD(prof, g, s, d)` (41_codeword.md R120): the three fragments, group first. Nothing when a ROM cell that it reads
holds no fragment. -/
def build (m : Memory) (k : Kind) (g s d : Byte) : Option Codeword :=
  match romRead m k .groups g, romRead m k .sockets s, romRead m k .dataCodes d with
  | some fg, some fs, some fd => some (fg ++ fs ++ fd)
  | _, _, _ => none

/-- A pulse pair in `PAIR` format: two unit counts of 5 bits (30_encoding.md R77). -/
structure Pair where
  high : BitVec 5
  low : BitVec 5
  deriving DecidableEq, Repr

/-- The short-long pair (1,3). -/
def shortLong : Pair := ⟨1#5, 3#5⟩

/-- The long-short pair (3,1). -/
def longShort : Pair := ⟨3#5, 1#5⟩

/-- The sync pair (1,31). -/
def syncPair : Pair := ⟨1#5, 31#5⟩

/-- `ENCODE(c)` (42_bit_encoder.md R140): the pulse pairs of a symbol code, in emission order. -/
def symbolPairs (c : SymCode) : List Pair :=
  if c = 0b00#2 then [shortLong, shortLong]
  else if c = 0b01#2 then [longShort, longShort]
  else if c = 0b10#2 then [shortLong, longShort]
  else []

/-- `SYNC()` (42_bit_encoder.md R140, R144). -/
def syncPairs : List Pair := [syncPair]

/-- The pulse pairs of a code the sequencer reads; a command has none. -/
def codePairs : Code → List Pair
  | .cmd _ => []
  | .sym c => symbolPairs c
  | .syncSlot => syncPairs

/-- The length in µs of one half of a pair (43_waveform_emitter.md R160). -/
def halfUs (pUs : Nat) (p : Pair) : Level → Nat
  | .high => p.high.toNat * pUs
  | .low => p.low.toNat * pUs

end Sys2Proof.Machine
end

