-- ==== Sys2Proof/Machine/Ops.lean ====
section
/-! DEFINITION. The operations the meanings share: responses and errors, the output line, acceptance, the two ends of a
transmission, held commands, reset and construction. -/

namespace Sys2Proof.Machine

/-- What an operation answers. -/
abbrev Answer := Host.Outcome State Fault Refusal

/-- `respond(r, code)` (00_scope.md R9). -/
def respond (r : Requester) (code : Result) (s : State) : State := { s with resp := s.resp ++ [(r, code)] }

/-- `raise <Error>()` for the errors before any side effect (00_scope.md R9; 60_exceptions.md R221 to R223): the response
to the submitting requester, and nothing else. This is how the core takes an exception. -/
def raise (code : Result) (s : State) : Answer := .next (respond s.submitter code s)

/-! ### The output line -/

/-- The changes of `GRANT` since the core last looked at it, in order (log 6). -/
def Platform.changes (p : Platform) : List Bool :=
  match p.grants with
  | cs :: _ => cs
  | [] => Config.freeGrants p.grantCount

/-- The core looks at `GRANT`: its level is the last of the changes. -/
def Platform.look (p : Platform) : Platform :=
  match p.grants with
  | cs :: css => { p with grant := cs.getLastD p.grant, grants := css }
  | [] => { p with grant := (Config.freeGrants p.grantCount).getLastD p.grant, grantCount := p.grantCount + 1 }

/-- The changes take away a grant that was there, be it given back later: `grant` is the level before them. -/
def withdrawn : Bool → List Bool → Bool
  | _, [] => false
  | grant, c :: cs => (grant && !c) || withdrawn c cs

/-- The next drive result of the platform (log 3). -/
def Platform.nextDraw (p : Platform) : DriveResult × Platform :=
  match p.draws with
  | r :: rs => (r, { p with draws := rs })
  | [] => (Config.freeDraw p.drawCount, { p with drawCount := p.drawCount + 1 })

/-- The platform has withdrawn the grant during the running transmission and since the core last looked
(70_reset_and_hazards.md R265). -/
def grantLost (s : State) : Bool := decide (s.txState = .transmitting) && withdrawn s.platform.grant s.platform.changes

/-- `GRANT` as SUBMIT and RESUME_WAITING sample it (10_state.md R27; 40_registry_validate.md R105;
44_transmitter.md R188). -/
def sampleGrant (s : State) : Bool × State := (s.platform.look.grant, { s with platform := s.platform.look })

/-- `platform_draw()` (43_waveform_emitter.md R164): the next draw of the platform; `fail` if the grant was withdrawn during
the transmission (70_reset_and_hazards.md R265; log 7). -/
def draw (s : State) : DriveResult × State :=
  if grantLost s then (.fail, { s with platform := s.platform.look })
  else (s.platform.look.nextDraw.1, { s with platform := s.platform.look.nextDraw.2 })

/-- `Drive(level)` (43_waveform_emitter.md R164). -/
def drive (l : Level) (s : State) : DriveResult × State :=
  ((draw s).1, { (draw s).2 with line := lineAfter l (draw s).1 })

/-- `Emit(level, us)` (43_waveform_emitter.md R165). -/
def emit (l : Level) (us : Nat) (s : State) : State := { s with trace := s.trace ++ [⟨l, us⟩] }

/-! ### Acceptance -/

/-- The position `ACCEPT` sets (40_registry_validate.md R105). -/
def SeqPos.start : SeqPos := ⟨0, 0, 0, .high⟩

/-- The state of a transmission that has just been accepted: `REQ`, `CW`, `OWNER`, `TX_STATE` and the position are
written, nothing else (40_registry_validate.md R105; 41_codeword.md R125). -/
def accepted (r : Requester) (cmd : Command) (cw : Codeword) (s : State) : State :=
  { s with
    req := some ⟨cmdKind cmd, cmdGroup cmd, cmdSocket cmd, cmdData cmd⟩
    cw := some cw
    owner := some r
    txState := .transmitting
    seq := some SeqPos.start }

/-- `ACCEPT(r, kindcode, prof, g, s, d)` for the command word that holds the four fields (40_registry_validate.md R105). -/
def accept (r : Requester) (k : Kind) (cmd : Command) (s : State) : Answer :=
  match build s.config.rom k (cmdGroup cmd) (cmdSocket cmd) (cmdData cmd) with
  | none => .fault .romCellAbsent
  | some cw => .next (accepted r cmd cw s)

/-! ### Held commands -/

/-- Where a held command stands in the order of `WAIT`: by requester, then by command word. -/
def waitKey (e : Requester × Command) : Nat := e.1 * 2 ^ 32 + e.2.toNat

/-- `WAIT ∪ {e}` on the rising list (10_state.md R28; log 16). -/
def waitInsert (e : Requester × Command) : List (Requester × Command) → List (Requester × Command)
  | [] => [e]
  | x :: xs =>
    if waitKey e < waitKey x then e :: x :: xs
    else if waitKey x < waitKey e then x :: waitInsert e xs
    else x :: xs

/-- The canonical form of `WAIT`: strictly rising. -/
def waitSorted : List (Requester × Command) → Bool
  | [] => true
  | [_] => true
  | x :: y :: xs => decide (waitKey x < waitKey y) && waitSorted (y :: xs)

/-- The next choice among `n` held commands (44_transmitter.md R188): the index is free (log 4). -/
def choose (n : Nat) (s : State) : Nat × State :=
  match s.choices with
  | i :: is => (i % n, { s with choices := is })
  | [] => (Config.freeChoice s.choiceCount % n, { s with choiceCount := s.choiceCount + 1 })

/-- `RESUME_WAITING()` (44_transmitter.md R188). Each round takes one element out of `WAIT`, so as many rounds as `WAIT`
has elements suffice. -/
def resumeRounds : Nat → State → Answer
  | 0, s => .next s
  | n + 1, s =>
    match s.wait with
    | [] => .next s
    | e :: es =>
      let chosen := choose (es.length + 1) s
      let held := (e :: es).getD chosen.1 e
      let sampled := sampleGrant { chosen.2 with wait := (e :: es).eraseIdx chosen.1 }
      if sampled.1 then
        match lookup s.config (cmdKind held.2) with
        | some k => accept held.1 k held.2 sampled.2
        | none => .fault .romCellAbsent
      else resumeRounds n (respond held.1 .resourceUnavailable sampled.2)

/-- `RESUME_WAITING()` over the whole of `WAIT`. -/
def resumeWaiting (s : State) : Answer := resumeRounds s.wait.length s

/-! ### The ends of a transmission -/

/-- `TX_STATE <- Idle` and `REQ, CW, SEQ, OWNER <- no value` (44_transmitter.md R186; 10_state.md R37). -/
def release (s : State) : State :=
  { s with txState := .idle, req := none, cw := none, seq := none, owner := none }

/-- `FINISH()` (44_transmitter.md R186). It drives nothing, so a grant withdrawn in the hold just ended does not undo the
`Ok`; RESUME_WAITING then samples `GRANT` without it (the model's choice where R265 is silent: DESIGN CHOICE, log 7). -/
def finish (s : State) : Answer :=
  match s.owner with
  | none => .fault (.valueless .owner)
  | some r => resumeWaiting (respond r .ok (release s))

/-- `FAULT_EXIT()` (60_exceptions.md R224): the line is forced low, whatever that drive gives. -/
def faultExit (s : State) : Answer :=
  match s.owner with
  | none => .fault (.valueless .owner)
  | some r => resumeWaiting (respond r .hardwareFault (release (drive .low s).2))

/-! ### Reset and construction -/

/-- `RESET()` (70_reset_and_hazards.md R260). Its drive is the next one after a grant withdrawn during the transmission that
it cuts (R265; log 7). -/
def resetCore (s : State) : State := { release (drive .low s).2 with wait := [] }

/-- Construction (70_reset_and_hazards.md R262, R263): an ill-formed configuration is refused by the check it fails; a
well-formed one is granted the line and reset, the reset drive giving `res`. -/
def construct (c : Config) (res : DriveResult) : Answer :=
  match c.firstFailure with
  | some k => .refused (.illFormedConfig k)
  | none => .next (State.resetOf c res)

end Sys2Proof.Machine
end

