-- ==== Sys2Proof/Machine/Commands.lean ====
section
/-! DEFINITION. The meanings of the command rows: SUBMIT (40_registry_validate.md R105) with the profile that LOOKUP
gave. -/

namespace Sys2Proof.Machine

/-- SUBMIT of a command whose kind has profile `k`: validation, then busy, then the grant (60_exceptions.md R225). -/
def submitProfile (k : Kind) (cmd : Command) (s : State) : Answer :=
  if validate k (cmdGroup cmd) (cmdSocket cmd) (cmdData cmd) then
    match s.txState with
    | .transmitting =>
      match s.config.busyPolicy with
      | .reject => raise .resourceUnavailable s
      | .block => .next { s with wait := waitInsert (s.submitter, cmd) s.wait }
    | .idle =>
      if (sampleGrant s).1 then accept s.submitter k cmd (sampleGrant s).2
      else raise .resourceUnavailable (sampleGrant s).2
  else raise .outOfRange s

/-- `TX.PT2260` (R105). -/
def execTxPT2260 (group socket data : Byte) (s : State) : Answer :=
  submitProfile .pt2260 (packCommand s.config.kindPT2260 group socket data) s

/-- `TX.PT2262` (R105). -/
def execTxPT2262 (group socket data : Byte) (s : State) : Answer :=
  submitProfile .pt2262 (packCommand s.config.kindPT2262 group socket data) s

/-- `TX.UNKNOWN` (60_exceptions.md R221): the other three bytes are not examined. -/
def execTxUnknown (s : State) : Answer := raise .unknownEncoder s

end Sys2Proof.Machine
end

