-- ==== Sys2Proof/Machine/Symbols.lean ====
section
/-! DEFINITION. The meanings of the rows the sequencer runs: the symbols and the sync slot. One execution is one step of
TRANSMIT (44_transmitter.md R180, R193): one `Drive` with its `Hold`, at the position `SEQ`. -/

namespace Sys2Proof.Machine

/-- The step of the loops of R180 past the position `q`: the next symbol or the sync slot; after the sync slot the next
repetition, or FINISH. -/
def nextPosition (q : SeqPos) (s : State) : Answer :=
  if q.pos < cwLen then .next { s with seq := some ⟨q.rep, q.pos + 1, 0, .high⟩ }
  else if q.rep + 1 < s.config.repeatCount then .next { s with seq := some ⟨q.rep + 1, 0, 0, .high⟩ }
  else finish s

/-- The step past the half `q` of a pair, `last` telling whether the pair is the last one of its position. -/
def nextHalf (last : Bool) (q : SeqPos) (s : State) : Answer :=
  match q.phase with
  | .high => .next { s with seq := some { q with phase := .low } }
  | .low => if last then nextPosition q s else .next { s with seq := some ⟨q.rep, q.pos, q.pair + 1, .high⟩ }

/-- One half of `PULSE(h, l)` (43_waveform_emitter.md R160): the drive, its hold, and the segment; a failed drive takes
FAULT_EXIT. -/
def playHalf (p : Pair) (last : Bool) (q : SeqPos) (s : State) : Answer :=
  match drive q.phase s with
  | (.fail, s') => faultExit s'
  | (.ok, s') => nextHalf last q (emit q.phase (halfUs s.config.pUs p q.phase) s')

/-- One step at the position `SEQ` whose code has the given pulse pairs. A position without a pair is passed at once
(42_bit_encoder.md R145). -/
def playPairs (pairs : List Pair) (s : State) : Answer :=
  match s.seq with
  | none => .fault (.valueless .seq)
  | some q =>
    match pairs[q.pair]? with
    | none => nextPosition q s
    | some p => playHalf p (decide (pairs.length ≤ q.pair + 1)) q s

/-- `SYM.0` (R141). -/
def execSym0 (s : State) : Answer := playPairs (symbolPairs 0b00#2) s

/-- `SYM.1` (R142). -/
def execSym1 (s : State) : Answer := playPairs (symbolPairs 0b01#2) s

/-- `SYM.F` (R143). -/
def execSymF (s : State) : Answer := playPairs (symbolPairs 0b10#2) s

/-- `SYM.RSV` (R145): no pulse, no error. -/
def execSymRsv (s : State) : Answer := playPairs (symbolPairs 0b11#2) s

/-- `SYNC` (R144). -/
def execSync (s : State) : Answer := playPairs syncPairs s

end Sys2Proof.Machine
end

