-- ==== Sys2Proof/Machine/Dispatch.lean ====
section
/-! DEFINITION. One arm per instruction. -/

namespace Sys2Proof.Machine

def exec (i : Instr) (s : State) : Host.Outcome State Fault Refusal :=
  match i with
  | .txPT2260 group socket data => Sys2Proof.Machine.execTxPT2260 group socket data s
  | .txPT2262 group socket data => Sys2Proof.Machine.execTxPT2262 group socket data s
  | .txUnknown _ _ _ _ => Sys2Proof.Machine.execTxUnknown s
  | .sym0 => Sys2Proof.Machine.execSym0 s
  | .sym1 => Sys2Proof.Machine.execSym1 s
  | .symF => Sys2Proof.Machine.execSymF s
  | .symRsv => Sys2Proof.Machine.execSymRsv s
  | .sync => Sys2Proof.Machine.execSync s

end Sys2Proof.Machine
end

