-- ==== Sys2Proof/Machine/Agents.lean ====
section
/-! DEFINITION. The agents' moves: what the sequencer fetches, how a command is delivered, a reset inside a hold, and how
the next move is taken from the schedule. -/

namespace Sys2Proof.Machine

/-! ### The sequencer -/

/-- The code the sequencer stands at: the symbol `CW[pos]`, or the sync slot at `pos = CW_LEN` (10_state.md R25;
44_transmitter.md R180). It reads `SEQ` and `CW`, which hold no value while `Idle` (10_state.md R37). -/
def fetchCode (s : State) : Except Fault Code :=
  match s.seq, s.cw with
  | none, _ => .error (.valueless .seq)
  | some _, none => .error (.valueless .cw)
  | some q, some cw => .ok (if q.pos < cwLen then .sym (cwSymbol cw q.pos) else .syncSlot)

/-- The sequencer's move: one step of the transmission, or, while `Idle`, nothing: the core waits
(60_exceptions.md R235). -/
def sequencerMove (s : State) : Answer :=
  match s.txState with
  | .idle => .next s
  | .transmitting =>
    match fetchCode s with
    | .error f => .fault f
    | .ok code => exec (decode s.config code) s

/-! ### The requesters -/

/-- The command stands at the command input, presented by `r` (20_memory.md R50, place 2). -/
def present (r : Requester) (cmd : Command) (s : State) : State :=
  { s with submitter := r, subs := s.subs ++ [(r, cmd)] }

/-- `SUBMIT(r, cmd)` with `r` in `REQUESTERS` (40_registry_validate.md R105). -/
def submit (r : Requester) (cmd : Command) (s : State) : Answer :=
  if s.config.requesters.contains r then exec (decode s.config (.cmd cmd)) (present r cmd s)
  else .refused (.notARequester r)

/-! ### Reset inside a hold -/

/-- A reset that lands in the hold of the sequencer's next half (70_reset_and_hazards.md R261): the half is driven and
its segment is not appended. Where the next step has no hold, the reset lands before it (log 10). -/
def resetInHold (s : State) : Answer :=
  match s.txState with
  | .idle => .next (resetCore s)
  | .transmitting =>
    match fetchCode s, s.seq with
    | .error f, _ => .fault f
    | .ok _, none => .fault (.valueless .seq)
    | .ok code, some q =>
      match (codePairs code)[q.pair]? with
      | none => .next (resetCore s)
      | some _ =>
        match drive q.phase s with
        | (.ok, s') => .next (resetCore s')
        | (.fail, s') =>
          match faultExit s' with
          | .next s'' => .next (resetCore s'')
          | .fault f => .fault f
          | .refused r => .refused r

/-! ### The schedule -/

/-- One move of an agent. -/
def takeEvent : Event → State → Answer
  | .submit r cmd, s => submit r cmd s
  | .sequencer, s => sequencerMove s
  | .reset, s => .next (resetCore s)
  | .resetInHold, s => resetInHold s

/-- The next move: the head of the schedule, or the sequencer's when the schedule is empty. That a schedule ends, so that no
requester is starved for ever by an endless one, is the model's choice (DESIGN CHOICE, log 9). -/
def nextMove (s : State) : Answer :=
  match s.events with
  | [] => sequencerMove s
  | e :: es => takeEvent e { s with events := es }

/-! ### Placing an instruction -/

/-- A command placed to be submitted next, by the first requester of the configuration, to a core with the kind codes that
opcode_table.json shows; `GRANT` does not change before it is sampled (log 17). -/
def placeCommand (w : Command) (s : State) : State :=
  { s with
    config := s.config.withTableKindCodes
    platform := { s.platform with grants := [] :: s.platform.grants }
    events := .submit (s.config.requesters.headD 0) w :: s.events }

/-- The transmission registers of a state that has none yet, for a symbol placed from outside (log 17). -/
def placedSeq (s : State) : SeqPos := s.seq.getD SeqPos.start

/-- `cw` with symbol `j` set to `c`. -/
def setCwSymbol (cw : Codeword) (j : Nat) (c : SymCode) : Codeword :=
  (cw &&& ~~~(3#24 <<< (22 - 2 * j))) ||| (c.setWidth 24 <<< (22 - 2 * j))

/-- A transmission that stands at the first half of position `pos`, with the codeword `cw`; the sequencer moves next and
its drive succeeds under an unchanged grant (log 17). -/
def placeTransmission (pos : Nat) (cw : Codeword) (s : State) : State :=
  { s with
    txState := .transmitting
    req := some (s.req.getD ⟨0, 0, 0, 0⟩)
    cw := some cw
    seq := some ⟨(placedSeq s).rep, pos, 0, .high⟩
    owner := some (s.owner.getD (s.config.requesters.headD 0))
    platform := { s.platform with grants := [] :: s.platform.grants, draws := .ok :: s.platform.draws }
    events := .sequencer :: s.events }

/-- A symbol placed where the sequencer fetches next. -/
def placeSymbol (c : SymCode) (s : State) : State :=
  let pos := if (placedSeq s).pos < cwLen then (placedSeq s).pos else 0
  placeTransmission pos (setCwSymbol (s.cw.getD 0) pos c) s

/-- The sync slot placed as the sequencer's next position. -/
def placeSync (s : State) : State := placeTransmission cwLen (s.cw.getD 0) s

end Sys2Proof.Machine
end

