-- ==== Sys2Proof/Machine/Step.lean ====
section
/-! DEFINITION. One step of the machine, and how an instruction is placed where the next step fetches it. -/

namespace Sys2Proof.Machine

/-- One step: one move of the agent whose turn it is. -/
def step (s : State) : Host.Outcome State Fault Refusal := nextMove s

/-- An instruction of opcode_table.json placed where the next step fetches it, numbered as `decodeTableWord` numbers it:
a command is submitted next; a symbol or the sync slot stands at `SEQ` in a running transmission (log 17). -/
def State.withFetchWord (s : State) (nbits w : Nat) : State :=
  if nbits = 0 then placeSync s
  else if nbits ≤ 8 then placeSymbol (BitVec.ofNat 2 w) s
  else placeCommand (BitVec.ofNat 32 w) s

end Sys2Proof.Machine
end

