-- ==== Sys2Proof/Machine/Transmit.lean ====
section
/-! DEFINITION. The spec's own view of a whole transmission, beside the machine that takes it step by step: PULSE and
TRANSMIT as the loops of the pseudocode, the waveform a transmission without a fault emits, and repeated execution. The
machine does not call these: statements compare it with them. -/

namespace Sys2Proof.Machine

/-! ### The pseudocode -/

/-- `PULSE(h, l)` (43_waveform_emitter.md R160). -/
def pulse (p : Pair) (s : State) : DriveResult × State :=
  match drive .high s with
  | (.fail, s1) => (.fail, s1)
  | (.ok, s1) =>
    match drive .low (emit .high (halfUs s.config.pUs p .high) s1) with
    | (.fail, s2) => (.fail, s2)
    | (.ok, s2) => (.ok, emit .low (halfUs s.config.pUs p .low) s2)

/-- The inner loop of TRANSMIT: the pairs of one position, the first of them numbered `pair`
(44_transmitter.md R180). -/
def transmitPairs (rep pos : Nat) : Nat → List Pair → State → DriveResult × State
  | _, [], s => (.ok, s)
  | pair, p :: ps, s =>
    match pulse p { s with seq := some ⟨rep, pos, pair, .high⟩ } with
    | (.fail, s') => (.fail, s')
    | (.ok, s') => transmitPairs rep pos (pair + 1) ps s'

/-- The middle loop: `n` symbols of the codeword from position `pos`. -/
def transmitSymbols (rep : Nat) (cw : Codeword) : Nat → Nat → State → DriveResult × State
  | _, 0, s => (.ok, s)
  | pos, n + 1, s =>
    match transmitPairs rep pos 0 (symbolPairs (cwSymbol cw pos)) s with
    | (.fail, s') => (.fail, s')
    | (.ok, s') => transmitSymbols rep cw (pos + 1) n s'

/-- One repetition: the symbols, then the sync slot. -/
def transmitRepetition (rep : Nat) (cw : Codeword) (s : State) : DriveResult × State :=
  match transmitSymbols rep cw 0 cwLen s with
  | (.fail, s') => (.fail, s')
  | (.ok, s') => transmitPairs rep cwLen 0 syncPairs s'

/-- The outer loop: `n` repetitions from repetition `rep`. -/
def transmitRepetitions (cw : Codeword) : Nat → Nat → State → DriveResult × State
  | _, 0, s => (.ok, s)
  | rep, n + 1, s =>
    match transmitRepetition rep cw s with
    | (.fail, s') => (.fail, s')
    | (.ok, s') => transmitRepetitions cw (rep + 1) n s'

/-- `TRANSMIT()` (44_transmitter.md R180), from the position `ACCEPT` sets to FINISH or FAULT_EXIT. -/
def transmit (s : State) : Answer :=
  match s.cw with
  | none => .fault (.valueless .cw)
  | some cw =>
    match transmitRepetitions cw 0 s.config.repeatCount s with
    | (.fail, s') => faultExit s'
    | (.ok, s') => finish s'

/-! ### The waveform -/

/-- The two segments of a pair (43_waveform_emitter.md R166). -/
def pairSegments (pUs : Nat) (p : Pair) : List Segment := [⟨.high, halfUs pUs p .high⟩, ⟨.low, halfUs pUs p .low⟩]

/-- The segments of a list of pairs. -/
def pairsSegments (pUs : Nat) (ps : List Pair) : List Segment := ps.flatMap (pairSegments pUs)

/-- The segments of `n` symbols of a codeword from position `pos`. -/
def symbolsSegments (pUs : Nat) (cw : Codeword) : Nat → Nat → List Segment
  | _, 0 => []
  | pos, n + 1 => pairsSegments pUs (symbolPairs (cwSymbol cw pos)) ++ symbolsSegments pUs cw (pos + 1) n

/-- One repetition: the symbols in codeword order, then sync (44_transmitter.md R181). -/
def repetitionSegments (pUs : Nat) (cw : Codeword) : List Segment :=
  symbolsSegments pUs cw 0 cwLen ++ pairsSegments pUs syncPairs

/-- `n` repetitions, back to back (44_transmitter.md R182, R191). -/
def transmissionSegments (pUs : Nat) (cw : Codeword) : Nat → List Segment
  | 0 => []
  | n + 1 => repetitionSegments pUs cw ++ transmissionSegments pUs cw n

/-- The time a list of segments takes, in µs. -/
def totalUs : List Segment → Nat
  | [] => 0
  | x :: xs => x.us + totalUs xs

/-- How many of `n` symbols from position `pos` are symbols of the alphabet: codes other than 11. -/
def validSymbols (cw : Codeword) : Nat → Nat → Nat
  | _, 0 => 0
  | pos, n + 1 => (if cwSymbol cw pos = 3#2 then 0 else 1) + validSymbols cw (pos + 1) n

/-- Levels that alternate strictly (42_bit_encoder.md R146). -/
def alternates : List Segment → Bool
  | [] => true
  | [_] => true
  | x :: y :: xs => decide (x.level ≠ y.level) && alternates (y :: xs)

/-! ### Repeated execution -/

/-- The state after `n` draws of the platform. -/
def afterDraws : Nat → State → State
  | 0, s => s
  | n + 1, s => afterDraws n (draw s).2

/-- The next `n` draws of the platform all succeed. -/
def drawsOk : Nat → State → Bool
  | 0, _ => true
  | n + 1, s => decide ((draw s).1 = .ok) && drawsOk n (draw s).2

/-- The pulse pairs of the rows that have some (42_bit_encoder.md, the table). -/
def instrPairs : Instr → List Pair
  | .txPT2260 _ _ _ => []
  | .txPT2262 _ _ _ => []
  | .txUnknown _ _ _ _ => []
  | .sym0 => [⟨1, 3⟩, ⟨1, 3⟩]
  | .sym1 => [⟨3, 1⟩, ⟨3, 1⟩]
  | .symF => [⟨1, 3⟩, ⟨3, 1⟩]
  | .symRsv => []
  | .sync => [⟨1, 31⟩]

/-- An instruction executed `n` times: the sequencer executes a symbol once for each half of its pairs. -/
def execTimes (i : Instr) : Nat → State → Answer
  | 0, s => .next s
  | n + 1, s =>
    match exec i s with
    | .next s' => execTimes i n s'
    | .fault f => .fault f
    | .refused r => .refused r

end Sys2Proof.Machine
end

