-- ==== Sys2Proof/Safety.lean ====
section
/-! DEFINITION. The invariant of the core, what is outstanding, quiescence, and the host's duties. -/

namespace Sys2Proof.Machine

/-- A command that passes LOOKUP and VALIDATE (40_registry_validate.md R100, R102). -/
def commandValid (c : Config) (cmd : Command) : Bool :=
  match lookup c (cmdKind cmd) with
  | some k => validate k (cmdGroup cmd) (cmdSocket cmd) (cmdData cmd)
  | none => false

/-- `REQ`, `CW`, `SEQ` and `OWNER` hold a value exactly while `Transmitting` (10_state.md R37). -/
def registersMatch (s : State) : Bool :=
  match s.txState with
  | .idle => s.req.isNone && s.cw.isNone && s.seq.isNone && s.owner.isNone
  | .transmitting => s.req.isSome && s.cw.isSome && s.seq.isSome && s.owner.isSome

/-- `SEQ` is in the ranges of 10_state.md R25. -/
def seqInRange (repeatCount : Nat) (q : SeqPos) : Bool :=
  decide (q.rep < repeatCount) && decide (q.pos ≤ cwLen) && decide (q.pair ≤ 1) && (decide (q.pos < cwLen) || decide (q.pair = 0))

/-- The invariant of a core that was constructed from a well-formed configuration. -/
structure CoreInv (s : State) : Prop where
  /-- 70_reset_and_hazards.md R263. -/
  configWf : s.config.wf = true
  /-- 10_state.md R37. -/
  registers : registersMatch s = true
  /-- 10_state.md R25. -/
  seqRange : ∀ q, s.seq = some q → seqInRange s.config.repeatCount q = true
  /-- 41_codeword.md R125: `CW` is the codeword of the accepted request until the transmission ends. -/
  codeword : ∀ q cw, s.req = some q → s.cw = some cw →
    ∃ k, lookup s.config q.kind = some k ∧ validate k q.group q.socket q.data = true ∧
      build s.config.rom k q.group q.socket q.data = some cw
  /-- 10_state.md R26. -/
  ownerKnown : ∀ r, s.owner = some r → r ∈ s.config.requesters
  /-- 10_state.md R28: `WAIT` is a set (log 16). -/
  waitIsSet : waitSorted s.wait = true
  /-- 44_transmitter.md R188: what is held has passed lookup and validation. -/
  waitValid : ∀ e ∈ s.wait, e.1 ∈ s.config.requesters ∧ commandValid s.config e.2 = true
  /-- Nothing is held while `Idle` (44_transmitter.md R188). -/
  waitIdle : s.txState = .idle → s.wait = []
  /-- 10_state.md R28: always empty under `Reject`. -/
  waitReject : s.config.busyPolicy = .reject → s.wait = []
  /-- 70_reset_and_hazards.md R265: a transmission was accepted under the grant, and has not gone on past a drive without
  it. -/
  granted : s.txState = .transmitting → s.platform.grant = true
  /-- 43_waveform_emitter.md R165: between transmissions the line is not high. -/
  lineIdle : s.txState = .idle → s.line ≠ .high
  /-- 43_waveform_emitter.md R160: the line is high through the high half of a pair, and not before it. -/
  linePhase : ∀ q, s.seq = some q → (s.line = .high ↔ q.phase = .low)

/-- How many commands of `r` wait for a response: the one being transmitted and the held ones. -/
def outstanding (s : State) (r : Requester) : Nat :=
  (if s.owner = some r then 1 else 0) + s.wait.countP fun e => e.1 == r

/-- How many commands `r` has submitted. -/
def submitted (s : State) (r : Requester) : Nat := s.subs.countP fun e => e.1 == r

/-- How many responses `r` has had. -/
def answered (s : State) (r : Requester) : Nat := s.resp.countP fun e => e.1 == r

/-- A quiescent state (44_transmitter.md R192): `Idle`, nothing held, and every submitted command has its response. -/
def Quiescent (s : State) : Prop :=
  s.txState = .idle ∧ s.wait = [] ∧ ∀ r, submitted s r = answered s r

/-- How many halves a running transmission has still to drive if none fails (44_transmitter.md R193): a repetition has
`4 * CW_LEN + 2` of them. -/
def drivesLeft (s : State) : Nat :=
  match s.txState, s.seq with
  | .transmitting, some q =>
    (s.config.repeatCount - q.rep) * (4 * cwLen + 2) -
      (4 * q.pos + 2 * q.pair + match q.phase with | .high => 0 | .low => 1)
  | _, _ => 0

/-- The event is a reset of the core (70_reset_and_hazards.md R260, R261). -/
def isReset : Event → Bool
  | .reset => true
  | .resetInHold => true
  | _ => false

/-- The next move is a reset. -/
def resetNext (s : State) : Bool :=
  match s.events with
  | [] => false
  | e :: _ => isReset e

/-- A requester's duty for the next event: it does not submit before it has its response (60_exceptions.md R232;
70_reset_and_hazards.md R267). The machine runs without the duties; a claim that needs one names it (log 20). A requester
whose command a reset dropped may submit again: a reset ends its wait, although no response comes (DESIGN CHOICE,
log 22). -/
def requesterDutyKept (s : State) : Bool :=
  match s.events with
  | .submit r _ :: _ => decide (outstanding s r = 0)
  | _ => true

/-- The platform's duty at the core's next look: it does not withdraw the grant during a transmission
(70_reset_and_hazards.md R265). -/
def platformDutyKept (s : State) : Bool := !grantLost s

end Sys2Proof.Machine
end

