-- ==== Sys2Proof/Certificates/Slice0/Obligations.lean ====
section
/-! DEFINITION. The statements for the provers. Each says what the spec's rule, or the model, does; OBLIGATIONS.json holds
its title, tier and source. -/

open Sys2Proof Sys2Proof.Machine

/-! ### Encoding -/

/-- 30_encoding.md R71: the first byte of a command is the most significant, and each field is one byte. -/
def Obligations.CommandBytesFirstMostSignificant : Prop :=
  ∀ k g s d : Byte,
    (packCommand k g s d).toNat = k.toNat * 2 ^ 24 + g.toNat * 2 ^ 16 + s.toNat * 2 ^ 8 + d.toNat ∧
    cmdKind (packCommand k g s d) = k ∧ cmdGroup (packCommand k g s d) = g ∧
    cmdSocket (packCommand k g s d) = s ∧ cmdData (packCommand k g s d) = d

/-- Every well-formed instruction, at every value of its operands, decodes from its own code. -/
def Obligations.DecodeOfEncode : Prop :=
  ∀ (c : Config) (i : Instr), c.kindPT2260 ≠ c.kindPT2262 → i.wf c = true → decode c (encode c i) = i

/-- Every code decodes to a well-formed instruction that encodes to the same code: no bit is dropped, and no code has
two meanings (30_encoding.md R82). -/
def Obligations.EncodeOfDecode : Prop :=
  ∀ (c : Config) (code : Code), encode c (decode c code) = code ∧ (decode c code).wf c = true

/-- The words of 95_test_vectors.md 2.1 and the symbol codes of 30_encoding.md R74 decode to what they stand for. -/
def Obligations.SpecWordsDecode : Prop :=
  ∀ c : Config, c.kindPT2260 = 0x00 → c.kindPT2262 = 0x01 →
    decodeBytes c [0x00, 0x00, 0x00, 0x01] = .ok (.txPT2260 0 0 1) ∧
    decodeBytes c [0x01, 0x0F, 0x03, 0x00] = .ok (.txPT2262 15 3 0) ∧
    decodeBytes c [0x63, 0x00, 0x00, 0x00] = .ok (.txUnknown 99 0 0 0) ∧
    decode c (.cmd 0x00040000) = .txPT2260 4 0 0 ∧
    decode c (.sym 0b00) = .sym0 ∧ decode c (.sym 0b01) = .sym1 ∧
    decode c (.sym 0b10) = .symF ∧ decode c (.sym 0b11) = .symRsv ∧
    decode c .syncSlot = .sync

/-- 30_encoding.md R78: the codes of the five results; codes 5 to 7 are never produced. -/
def Obligations.ResultCodes : Prop :=
  Result.ok.code = 0 ∧ Result.unknownEncoder.code = 1 ∧ Result.outOfRange.code = 2 ∧
  Result.resourceUnavailable.code = 3 ∧ Result.hardwareFault.code = 4 ∧ ∀ r : Result, r.code.toNat < 5

/-! ### Steps -/

/-- A step whose next move is a submit runs the instruction that the command decodes to, with the submitter at the command
input and the submit in the history. -/
def Obligations.StepRunsSubmittedCommand : Prop :=
  ∀ (s : State) (r : Requester) (cmd : Command) (es : List Event),
    s.events = .submit r cmd :: es → r ∈ s.config.requesters →
    step s = exec (decode s.config (.cmd cmd)) { s with events := es, submitter := r, subs := s.subs ++ [(r, cmd)] }

/-- A step of the sequencer runs the instruction at `SEQ`: the symbol `CW[pos]`, or sync at position 12
(44_transmitter.md R180). The sequencer moves when it is its turn and when the schedule is empty (the model's choice,
log 9). -/
def Obligations.StepRunsSequencerInstruction : Prop :=
  ∀ (s : State) (q : SeqPos) (cw : Codeword),
    s.txState = .transmitting → s.seq = some q → s.cw = some cw →
    (s.events = [] →
      step s = exec (decode s.config (if q.pos < 12 then .sym (cwSymbol cw q.pos) else .syncSlot)) s) ∧
    (∀ es, s.events = .sequencer :: es →
      step s = exec (decode s.config (if q.pos < 12 then .sym (cwSymbol cw q.pos) else .syncSlot)) { s with events := es })

/-- With nothing to do the core waits in `Idle` (60_exceptions.md R235). -/
def Obligations.IdleCoreWaits : Prop :=
  ∀ s : State, s.txState = .idle → s.events = [] → step s = .next s

/-- The model's choice (log 12): a submit by an identity outside `REQUESTERS` has no meaning. -/
def Obligations.SubmitOutsideRequestersRefused : Prop :=
  ∀ (s : State) (r : Requester) (cmd : Command) (es : List Event),
    s.events = .submit r cmd :: es → r ∉ s.config.requesters → step s = .refused (.notARequester r)

/-! ### Lookup, validation and rejection -/

/-- 30_encoding.md R73: the kind byte selects a profile by equality alone; any other value is answered `UnknownEncoder`. -/
def Obligations.KindSelectsByEquality : Prop :=
  ∀ c : Config, c.wf = true →
    c.kindPT2260 ≠ c.kindPT2262 ∧ c.kindPT2260 ≠ 99 ∧ c.kindPT2262 ≠ 99 ∧
    (∀ code : Byte, (lookup c code = some .pt2260 ↔ code = c.kindPT2260) ∧ (lookup c code = some .pt2262 ↔ code = c.kindPT2262)) ∧
    ∀ (cmd : Command) (s : State), s.config = c → cmdKind cmd ≠ c.kindPT2260 → cmdKind cmd ≠ c.kindPT2262 →
      exec (decode c (.cmd cmd)) s = .next { s with resp := s.resp ++ [(s.submitter, .unknownEncoder)] }

/-- 60_exceptions.md R221: `TX.UNKNOWN` is answered `UnknownEncoder` and nothing else changes; no other command is. -/
def Obligations.UnknownKindAnswered : Prop :=
  (∀ (k g so d : Byte) (s : State),
    exec (.txUnknown k g so d) s = .next { s with resp := s.resp ++ [(s.submitter, .unknownEncoder)] }) ∧
  ∀ (cmd : Command) (s : State),
    exec (decode s.config (.cmd cmd)) s = .next { s with resp := s.resp ++ [(s.submitter, .unknownEncoder)] } ↔
      cmdKind cmd ≠ s.config.kindPT2260 ∧ cmdKind cmd ≠ s.config.kindPT2262

/-- 40_registry_validate.md R103: the accepted index sets, and how many triples they hold. -/
def Obligations.AcceptedIndexSets : Prop :=
  (∀ g s d : Byte, validate .pt2260 g s d = true ↔ g.toNat < 4 ∧ s.toNat < 3 ∧ d.toNat < 2) ∧
  (∀ g s d : Byte, validate .pt2262 g s d = true ↔ g.toNat < 16 ∧ s.toNat < 4 ∧ d.toNat < 2) ∧
  tableLen .pt2260 .groups * tableLen .pt2260 .sockets * tableLen .pt2260 .dataCodes = 24 ∧
  tableLen .pt2262 .groups * tableLen .pt2262 .sockets * tableLen .pt2262 .dataCodes = 128

/-- 60_exceptions.md R222: a command is answered `OutOfRange`, with no other effect, exactly when an index is at or above its
bound, whatever the core does. The bounds are those of 40_registry_validate.md R102 and R103; the PT2262 socket bound 4 is
the spec's own derivation, which R103 marks as such. -/
def Obligations.OutOfRangeAnswered : Prop :=
  ∀ (g so d : Byte) (s : State),
    (exec (.txPT2260 g so d) s = .next { s with resp := s.resp ++ [(s.submitter, .outOfRange)] } ↔
      4 ≤ g.toNat ∨ 3 ≤ so.toNat ∨ 2 ≤ d.toNat) ∧
    (exec (.txPT2262 g so d) s = .next { s with resp := s.resp ++ [(s.submitter, .outOfRange)] } ↔
      16 ≤ g.toNat ∨ 4 ≤ so.toNat ∨ 2 ≤ d.toNat)

/-- 60_exceptions.md R225: the order of the errors. -/
def Obligations.ErrorPriority : Prop :=
  ∀ (cmd : Command) (s : State),
    (lookup s.config (cmdKind cmd) = none →
      exec (decode s.config (.cmd cmd)) s = .next (respond s.submitter .unknownEncoder s)) ∧
    (∀ k, lookup s.config (cmdKind cmd) = some k →
      (validate k (cmdGroup cmd) (cmdSocket cmd) (cmdData cmd) = false →
        exec (decode s.config (.cmd cmd)) s = .next (respond s.submitter .outOfRange s)) ∧
      (validate k (cmdGroup cmd) (cmdSocket cmd) (cmdData cmd) = true →
        (s.txState = .transmitting → s.config.busyPolicy = .reject →
          exec (decode s.config (.cmd cmd)) s = .next (respond s.submitter .resourceUnavailable s)) ∧
        (s.txState = .idle → (sampleGrant s).1 = false →
          exec (decode s.config (.cmd cmd)) s = .next (respond s.submitter .resourceUnavailable (sampleGrant s).2)))) ∧
    ∀ t, exec (decode s.config (.cmd cmd)) s = .next t → ∀ r, (r, Result.hardwareFault) ∈ t.resp → (r, Result.hardwareFault) ∈ s.resp

/-! ### Acceptance and holding -/

/-- A command with indices in range is accepted by an idle core that samples the grant: `REQ`, `CW`, `OWNER`, `TX_STATE` and
`SEQ` are written and nothing else of the core (40_registry_validate.md R105; 41_codeword.md R125). -/
def Obligations.ValidCommandAccepted : Prop :=
  ∀ (g so d : Byte) (s : State), s.config.wf = true → s.txState = .idle → (sampleGrant s).1 = true →
    (g.toNat < 4 → so.toNat < 3 → d.toNat < 2 →
      ∃ fg fs fd, romRead s.config.rom .pt2260 .groups g = some fg ∧ romRead s.config.rom .pt2260 .sockets so = some fs ∧
        romRead s.config.rom .pt2260 .dataCodes d = some fd ∧
        exec (.txPT2260 g so d) s = .next { (sampleGrant s).2 with
          req := some ⟨s.config.kindPT2260, g, so, d⟩, cw := some (fg ++ fs ++ fd), owner := some s.submitter,
          txState := .transmitting, seq := some ⟨0, 0, 0, .high⟩ }) ∧
    (g.toNat < 16 → so.toNat < 4 → d.toNat < 2 →
      ∃ fg fs fd, romRead s.config.rom .pt2262 .groups g = some fg ∧ romRead s.config.rom .pt2262 .sockets so = some fs ∧
        romRead s.config.rom .pt2262 .dataCodes d = some fd ∧
        exec (.txPT2262 g so d) s = .next { (sampleGrant s).2 with
          req := some ⟨s.config.kindPT2262, g, so, d⟩, cw := some (fg ++ fs ++ fd), owner := some s.submitter,
          txState := .transmitting, seq := some ⟨0, 0, 0, .high⟩ })

/-- Under `Block` a valid command that arrives during a transmission joins `WAIT`, and nothing else changes: there is no
response (44_transmitter.md R188; 40_registry_validate.md R105). -/
def Obligations.BusyCommandHeldUnderBlock : Prop :=
  ∀ (cmd : Command) (s : State), commandValid s.config cmd = true → s.txState = .transmitting →
    s.config.busyPolicy = .block →
    ∃ w, exec (decode s.config (.cmd cmd)) s = .next { s with wait := w } ∧
      ∀ e, e ∈ w ↔ e = (s.submitter, cmd) ∨ e ∈ s.wait

/-- RESUME_WAITING takes one held command, and any of them can be the one; it accepts it when it samples the grant, and
otherwise answers it `ResourceUnavailable` and goes on with the others; while the grant stays away every held command is
answered so (44_transmitter.md R188). -/
def Obligations.HeldCommandResumes : Prop :=
  ∀ s : State, s.config.wf = true → (∀ e ∈ s.wait, commandValid s.config e.2 = true) → waitSorted s.wait = true →
    (s.wait ≠ [] →
      ∃ e cs c, e ∈ s.wait ∧ (∀ i is, s.choices = i :: is → i < s.wait.length → s.wait[i]? = some e) ∧
        ((sampleGrant s).1 = true →
          ∃ t, resumeWaiting s = .next t ∧ t.owner = some e.1 ∧ t.txState = .transmitting ∧
            t.req = some ⟨cmdKind e.2, cmdGroup e.2, cmdSocket e.2, cmdData e.2⟩ ∧ t.seq = some ⟨0, 0, 0, .high⟩ ∧
            t.resp = s.resp ∧ t.trace = s.trace ∧ t.line = s.line ∧ (∀ x, x ∈ t.wait ↔ x ∈ s.wait ∧ x ≠ e)) ∧
        ((sampleGrant s).1 = false →
          resumeWaiting s = resumeWaiting { (sampleGrant s).2 with
            wait := s.wait.erase e, choices := cs, choiceCount := c,
            resp := s.resp ++ [(e.1, .resourceUnavailable)] })) ∧
    (∀ css, s.platform.grant = false → s.platform.grants = List.replicate s.wait.length [] ++ css →
      ∃ (order : List (Requester × Command)) (t : State), order.Perm s.wait ∧ resumeWaiting s = .next t ∧ t.wait = [] ∧
        t.resp = s.resp ++ order.map (fun e => (e.1, Result.resourceUnavailable)) ∧
        t.txState = s.txState ∧ t.trace = s.trace ∧ t.line = s.line)

/-! ### The profile ROM and the codeword -/

/-- 20_memory.md R55: the address of a fragment, which addresses hold one, and that no other does. -/
def Obligations.RomAddressing : Prop :=
  (∀ (k : Kind) (t : Table) (i : BitVec 4),
    (romaddr k t i).toNat = (if k = .pt2262 then 64 else 0) +
      (match t with | .groups => 0 | .sockets => 16 | .dataCodes => 32) + i.toNat) ∧
  ∀ c : Config, c.wf = true →
    (∀ (k : Kind) (t : Table) (i : Byte), (romRead c.rom k t i).isSome = true ↔ i.toNat < tableLen k t) ∧
    (∀ a, (c.rom.read a).isSome = true → a < 128 ∧
      ∃ (k : Kind) (t : Table) (i : BitVec 4), a = (romaddr k t i).toNat ∧ i.toNat < tableLen k t)

/-- 41_codeword.md R120: the codeword is the group's symbols, then the socket's, then the data code's. -/
def Obligations.CodewordConcatenatesFragments : Prop :=
  ∀ (c : Config) (k : Kind) (g s d : Byte), c.wf = true → validate k g s d = true →
    ∃ cw fg fs fd, build c.rom k g s d = some cw ∧ romRead c.rom k .groups g = some fg ∧
      romRead c.rom k .sockets s = some fs ∧ romRead c.rom k .dataCodes d = some fd ∧
      ∀ j, j < 4 → cwSymbol cw j = fragSymbol fg j ∧ cwSymbol cw (4 + j) = fragSymbol fs j ∧
        cwSymbol cw (8 + j) = fragSymbol fd j

/-- The two codewords the source gives in full (41_codeword.md R123), in every well-formed configuration. -/
def Obligations.KnownCodewords : Prop :=
  ∀ c : Config, c.wf = true →
    build c.rom .pt2260 0 0 1 = some 0x6A6804 ∧ build c.rom .pt2262 15 3 0 = some 0x00AAA8

/-- 41_codeword.md R124: the codewords of one kind are pairwise distinct. -/
def Obligations.CodewordsDistinct : Prop :=
  ∀ (c : Config) (k : Kind) (g s d g' s' d' : Byte), c.wf = true →
    validate k g s d = true → validate k g' s' d' = true →
    build c.rom k g s d = build c.rom k g' s' d' → g = g' ∧ s = s' ∧ d = d'

/-- A codeword of a well-formed configuration holds no reserved symbol (20_memory.md R52; 42_bit_encoder.md R145). -/
def Obligations.CodewordHasNoReservedSymbol : Prop :=
  ∀ (c : Config) (k : Kind) (g s d : Byte) (cw : Codeword), c.wf = true → build c.rom k g s d = some cw →
    ∀ j, j < 12 → cwSymbol cw j ≠ 3

/-- 20_memory.md R54: nothing writes the profile ROM or the configuration; every read gives the same word before and
after any step. -/
def Obligations.RomNeverWritten : Prop :=
  ∀ s t : State, step s = .next t → t.config = s.config ∧ ∀ a, t.config.rom.read a = s.config.rom.read a

/-! ### Symbols, sync and the line -/

/-- 42_bit_encoder.md R140: the pulse pairs of every symbol code and of sync. -/
def Obligations.PulseTable : Prop :=
  symbolPairs 0b00 = [⟨1, 3⟩, ⟨1, 3⟩] ∧ symbolPairs 0b01 = [⟨3, 1⟩, ⟨3, 1⟩] ∧ symbolPairs 0b10 = [⟨1, 3⟩, ⟨3, 1⟩] ∧
  symbolPairs 0b11 = [] ∧ syncPairs = [⟨1, 31⟩]

/-- 43_waveform_emitter.md R164: a drive sets the line, to `Unknown` when it fails, and nothing else of the core. `GRANT` is
an input of the platform (10_state.md R27); that its level after a drive is the last of the platform's changes is the
model's, not R164's (log 6). -/
def Obligations.DriveSetsLine : Prop :=
  ∀ (l : Level) (s : State),
    ((drive l s).1 = .ok → (drive l s).2.line = (match l with | .low => .low | .high => .high)) ∧
    ((drive l s).1 = .fail → (drive l s).2.line = .unknown) ∧
    (drive l s).2.config = s.config ∧ (drive l s).2.txState = s.txState ∧ (drive l s).2.req = s.req ∧
    (drive l s).2.cw = s.cw ∧ (drive l s).2.seq = s.seq ∧ (drive l s).2.owner = s.owner ∧
    (drive l s).2.wait = s.wait ∧ (drive l s).2.trace = s.trace ∧ (drive l s).2.resp = s.resp ∧
    (drive l s).2.platform.grant = s.platform.changes.getLastD s.platform.grant

/-- The high half of a pair: the line goes high for the pair's high count, and the low half is next
(43_waveform_emitter.md R160; 44_transmitter.md R180, R193). -/
def Obligations.HighHalfCompletes : Prop :=
  ∀ (i : Instr) (p : Pair) (q : SeqPos) (s : State), i = .sym0 ∨ i = .sym1 ∨ i = .symF ∨ i = .sync →
    (instrPairs i)[q.pair]? = some p → s.seq = some q → q.phase = .high → (draw s).1 = .ok →
    exec i s = .next { (draw s).2 with
      line := .high, trace := s.trace ++ [⟨.high, p.high.toNat * s.config.pUs⟩], seq := some { q with phase := .low } }

/-- The low half of a symbol's pair: the line goes low for the pair's low count; the second pair is next, or the next
position (44_transmitter.md R180, R193). -/
def Obligations.LowHalfOfSymbolCompletes : Prop :=
  ∀ (i : Instr) (p : Pair) (q : SeqPos) (s : State), i = .sym0 ∨ i = .sym1 ∨ i = .symF →
    (instrPairs i)[q.pair]? = some p → s.seq = some q → q.phase = .low → q.pos < 12 → (draw s).1 = .ok →
    exec i s = .next { (draw s).2 with
      line := .low, trace := s.trace ++ [⟨.low, p.low.toNat * s.config.pUs⟩],
      seq := some (if q.pair = 0 then ⟨q.rep, q.pos, 1, .high⟩ else ⟨q.rep, q.pos + 1, 0, .high⟩) }

/-- 42_bit_encoder.md R141, R142, R143: the four segments of each symbol, when its four drives succeed. -/
def Obligations.SymbolWaveforms : Prop :=
  ∀ (rep pos : Nat) (s : State), pos < 12 → s.seq = some ⟨rep, pos, 0, .high⟩ → drawsOk 4 s = true →
    let u := s.config.pUs
    let done := fun w : List Segment => Host.Outcome.next (φ := Fault) (ρ := Refusal) { s with
      line := .low, trace := s.trace ++ w, seq := some ⟨rep, pos + 1, 0, .high⟩,
      platform := (afterDraws 4 s).platform }
    execTimes .sym0 4 s = done [⟨.high, u⟩, ⟨.low, 3 * u⟩, ⟨.high, u⟩, ⟨.low, 3 * u⟩] ∧
    execTimes .sym1 4 s = done [⟨.high, 3 * u⟩, ⟨.low, u⟩, ⟨.high, 3 * u⟩, ⟨.low, u⟩] ∧
    execTimes .symF 4 s = done [⟨.high, u⟩, ⟨.low, 3 * u⟩, ⟨.high, 3 * u⟩, ⟨.low, u⟩]

/-- 42_bit_encoder.md R145: the reserved symbol gives no pulse and no error; the sequencer passes to the next position,
and no time passes. -/
def Obligations.ReservedSymbolSkipped : Prop :=
  ∀ (q : SeqPos) (s : State), s.seq = some q → q.pos < 12 →
    exec .symRsv s = .next { s with seq := some ⟨q.rep, q.pos + 1, 0, .high⟩ }

/-- 42_bit_encoder.md R144: sync is one pair, (1,31), at position 12 alone; after it comes the next repetition, if there
is one. -/
def Obligations.SyncWaveform : Prop :=
  (∀ (c : Config) (cw : Codeword) (q : SeqPos),
    decode c (if q.pos < 12 then .sym (cwSymbol cw q.pos) else .syncSlot) = .sync ↔ 12 ≤ q.pos) ∧
  ∀ (rep : Nat) (s : State), s.seq = some ⟨rep, 12, 0, .high⟩ → drawsOk 2 s = true →
    (rep + 1 < s.config.repeatCount →
      execTimes .sync 2 s = .next { s with
        line := .low, trace := s.trace ++ [⟨.high, s.config.pUs⟩, ⟨.low, 31 * s.config.pUs⟩],
        seq := some ⟨rep + 1, 0, 0, .high⟩, platform := (afterDraws 2 s).platform }) ∧
    (s.config.repeatCount ≤ rep + 1 → ∀ r, s.owner = some r → s.wait = [] →
      ∃ t, execTimes .sync 2 s = .next t ∧ t.txState = .idle ∧
        t.trace = s.trace ++ [⟨.high, s.config.pUs⟩, ⟨.low, 31 * s.config.pUs⟩])

/-! ### The ends of a transmission -/

/-- 44_transmitter.md R186: the low half of the last sync ends the transmission: `Idle`, no register values, `Ok` to the
owner, the line low, and then RESUME_WAITING. -/
def Obligations.FinishAnswersOk : Prop :=
  ∀ (rep : Nat) (r : Requester) (s : State), s.seq = some ⟨rep, 12, 0, .low⟩ → s.config.repeatCount ≤ rep + 1 →
    s.owner = some r → (draw s).1 = .ok →
    let t : State := { (draw s).2 with
      line := .low, trace := s.trace ++ [⟨.low, 31 * s.config.pUs⟩], txState := .idle, req := none, cw := none,
      seq := none, owner := none, resp := s.resp ++ [(r, .ok)] }
    exec .sync s = resumeWaiting t ∧ (s.wait = [] → exec .sync s = .next t)

/-- 60_exceptions.md R224: a failed drive ends the transmission: one drive low, whose result decides the line alone, no
segment, `Idle`, no register values, `HardwareFault` to the owner, and then RESUME_WAITING. It is the one cause: an
instruction whose drive succeeds answers no `HardwareFault`. -/
def Obligations.FailedDriveExits : Prop :=
  (∀ (i : Instr) (q : SeqPos) (r : Requester) (s : State), i = .sym0 ∨ i = .sym1 ∨ i = .symF ∨ i = .sync →
    s.seq = some q → q.pair < (instrPairs i).length → s.owner = some r → (draw s).1 = .fail →
    let forced := draw (draw s).2
    let t : State := { forced.2 with
      line := (match forced.1 with | .ok => .low | .fail => .unknown), txState := .idle, req := none, cw := none,
      seq := none, owner := none, resp := s.resp ++ [(r, .hardwareFault)] }
    exec i s = resumeWaiting t ∧ t.trace = s.trace ∧ (s.wait = [] → exec i s = .next t)) ∧
  ∀ (i : Instr) (s t : State), (draw s).1 = .ok → exec i s = .next t →
    ∀ r, (r, Result.hardwareFault) ∈ t.resp → (r, Result.hardwareFault) ∈ s.resp

/-- 70_reset_and_hazards.md R265: a grant withdrawn during a transmission makes the next drive fail, be it given back before
it, and the transmission ends with `HardwareFault`; while the platform keeps the grant, a drive has the platform's own
draw. If the grant stays away, the held commands are answered too. That the changes of `GRANT` come with the core's looks
at it is the model's (log 6). -/
def Obligations.WithdrawnGrantEndsTransmission : Prop :=
  (∀ (l : Level) (s : State), platformDutyKept s = true → (drive l s).1 = s.platform.look.nextDraw.1) ∧
  (∀ (l : Level) (s : State), s.txState = .transmitting → withdrawn s.platform.grant s.platform.changes = true →
    (drive l s).1 = .fail) ∧
  ∀ (s : State) (r : Requester), CoreInv s → s.txState = .transmitting → s.owner = some r →
    s.events = [] ∨ (∃ es, s.events = .sequencer :: es) → withdrawn true s.platform.changes = true →
    ∃ t xs, step s = .next t ∧ t.trace = s.trace ∧ t.resp = s.resp ++ (r, .hardwareFault) :: xs ∧
      ∀ cs css, s.platform.grants = cs :: (List.replicate (s.wait.length + 1) [] ++ css) → cs.getLastD true = false →
        t.txState = .idle ∧ t.wait = [] ∧ ∀ e ∈ s.wait, (e.1, .resourceUnavailable) ∈ xs

/-- The model's choice where 70_reset_and_hazards.md R265 is silent (log 7): a grant withdrawn in the hold of a transmission's
last half meets no drive, so the owner is answered `Ok`; RESUME_WAITING then samples `GRANT` without it and answers every
held command `ResourceUnavailable` (44_transmitter.md R188). -/
def Obligations.GrantLostInLastHold : Prop :=
  ∀ (rep : Nat) (r : Requester) (s : State) (css : List (List Bool)), s.seq = some ⟨rep, 12, 0, .low⟩ →
    s.config.repeatCount ≤ rep + 1 → s.owner = some r → s.platform.grant = true → s.wait ≠ [] →
    s.platform.grants = [] :: [false] :: (List.replicate (s.wait.length - 1) [] ++ css) → (draw s).1 = .ok →
    ∃ (order : List (Requester × Command)) (t : State), order.Perm s.wait ∧ exec .sync s = .next t ∧
      t.txState = .idle ∧ t.wait = [] ∧ t.platform.grant = false ∧ t.trace = s.trace ++ [⟨.low, 31 * s.config.pUs⟩] ∧
      t.resp = s.resp ++ (r, .ok) :: order.map (fun e => (e.1, Result.resourceUnavailable))

/-! ### Reset and construction -/

/-- 10_state.md R36: the state after reset, of any configuration and of `State.reset` (whose configuration, grant and own
fields are the model's choice: logs 2, 6, 15). -/
def Obligations.ResetValues : Prop :=
  (∃ c res, State.reset = State.resetOf c res) ∧
  ∀ (c : Config) (res : DriveResult), let s := State.resetOf c res
    s.txState = .idle ∧ s.line = (match res with | .ok => .low | .fail => .unknown) ∧ s.req = none ∧ s.cw = none ∧
    s.seq = none ∧ s.owner = none ∧ s.wait = [] ∧ s.trace = [] ∧ s.resp = [] ∧ s.busy = 0 ∧ s.config = c

/-- 70_reset_and_hazards.md R260: reset drives the line low, makes the core `Idle`, drops the register values and what is
held, and changes nothing else of the core: no segment, no response. Its drive is the model's draw: a grant withdrawn during
the transmission that the reset cuts fails it, which is read from 70_reset_and_hazards.md R265 (log 7), and `GRANT` takes the
platform's changes (log 6). -/
def Obligations.ResetRule : Prop :=
  ∀ (s : State) (es : List Event), s.events = .reset :: es →
    step s = .next { (draw { s with events := es }).2 with
      line := (match (draw { s with events := es }).1 with | .ok => .low | .fail => .unknown), txState := .idle,
      req := none, cw := none, seq := none, owner := none, wait := [] }

/-- 70_reset_and_hazards.md R261: a reset in the hold of a half that was driven: the half's segment is not appended, and
neither the owner nor a held requester gets a response. -/
def Obligations.ResetInHoldAborts : Prop :=
  ∀ (s : State) (es : List Event), CoreInv s → s.txState = .transmitting → s.events = .resetInHold :: es →
    (draw s).1 = .ok →
    ∃ t, step s = .next t ∧ t.txState = .idle ∧ t.trace = s.trace ∧ t.resp = s.resp ∧ t.wait = [] ∧
      t.req = none ∧ t.cw = none ∧ t.seq = none ∧ t.owner = none ∧ t.line ≠ .high ∧ t.config = s.config

/-- 70_reset_and_hazards.md R263: construction gives a well-formed configuration the state after reset, and refuses any
other by a check that fails. -/
def Obligations.ConstructionChecksConfiguration : Prop :=
  ∀ (c : Config) (res : DriveResult),
    ((∀ k, c.passes k = true) → construct c res = .next (State.resetOf c res)) ∧
    (∀ k, c.passes k = false →
      ∃ k', c.passes k' = false ∧ construct c res = .refused (.illFormedConfig k'))

/-! ### Invariants and whole-machine rules -/

/-- The invariant holds after construction and at `State.reset`. -/
def Obligations.InvariantAtReset : Prop :=
  (∀ (c : Config) (res : DriveResult), c.wf = true → CoreInv (State.resetOf c res)) ∧ CoreInv State.reset

/-- Every step of every agent keeps the invariant. -/
def Obligations.StepKeepsInvariant : Prop :=
  ∀ s t : State, CoreInv s → step s = .next t → CoreInv t

/-- A core that satisfies the invariant never stops: every step answers a next state, but for a submit by an identity
outside `REQUESTERS` (log 12). -/
def Obligations.CoreNeverStops : Prop :=
  ∀ s : State, CoreInv s →
    (∃ t, step s = .next t) ∨
    ∃ r cmd es, s.events = .submit r cmd :: es ∧ r ∉ s.config.requesters ∧ step s = .refused (.notARequester r)

/-- 44_transmitter.md R183: the only changes of `TX_STATE`. -/
def Obligations.TxStateTransitions : Prop :=
  ∀ s t : State, step s = .next t →
    (s.txState = .idle → t.txState = .transmitting →
      ∃ r cmd es k, s.events = .submit r cmd :: es ∧ lookup s.config (cmdKind cmd) = some k ∧
        validate k (cmdGroup cmd) (cmdSocket cmd) (cmdData cmd) = true ∧
        s.platform.look.grant = true ∧ t.owner = some r) ∧
    (s.txState = .transmitting → t.txState = .idle →
      resetNext s = true ∨
      ∃ r x xs, s.owner = some r ∧ (x = .ok ∨ x = .hardwareFault) ∧ t.resp = s.resp ++ (r, x) :: xs)

/-- A command submitted during a transmission is rejected or held; it never touches the line, the trace or the running
transmission (44_transmitter.md R184, R185). -/
def Obligations.SubmitNeverTouchesTransmission : Prop :=
  ∀ (s t : State) (r : Requester) (cmd : Command) (es : List Event), s.txState = .transmitting →
    s.events = .submit r cmd :: es → step s = .next t →
    t.trace = s.trace ∧ t.line = s.line ∧ t.txState = s.txState ∧ t.req = s.req ∧ t.cw = s.cw ∧ t.seq = s.seq ∧
    t.owner = s.owner ∧ t.platform = s.platform ∧
    ((t.wait = s.wait ∧ ∃ x, x ≠ .ok ∧ x ≠ .hardwareFault ∧ t.resp = s.resp ++ [(r, x)]) ∨
     (t.resp = s.resp ∧ ∀ e, e ∈ t.wait ↔ e = (r, cmd) ∨ e ∈ s.wait))

/-- `TRACE`, `RESP` and the submit history only grow, `TRACE` by at most one segment a step (10_state.md R29;
44_transmitter.md R193). -/
def Obligations.HistoriesOnlyGrow : Prop :=
  ∀ s t : State, step s = .next t →
    ∃ xs ys zs, t.trace = s.trace ++ xs ∧ xs.length ≤ 1 ∧ t.resp = s.resp ++ ys ∧ t.subs = s.subs ++ zs ∧ zs.length ≤ 1

/-- Every submit gets exactly one response (40_registry_validate.md R106): in every step but a reset, the submits of a
requester are its responses and its outstanding commands. The premise about `WAIT` is the host's duty not to submit a
held command again (log 11). -/
def Obligations.EverySubmitAccountedFor : Prop :=
  ∀ s t : State, CoreInv s → step s = .next t → resetNext s = false →
    (∀ r cmd es, s.events = .submit r cmd :: es → (r, cmd) ∉ s.wait) →
    ∀ r, submitted t r + answered s r + outstanding s r = submitted s r + answered t r + outstanding t r

/-- While the requesters keep their duty, no requester has more than one command outstanding (10_state.md R28;
60_exceptions.md R232). A command that a reset dropped counts as lost and no longer as outstanding, which is the model's
choice (log 22). -/
def Obligations.OneOutstandingPerRequester : Prop :=
  ∀ s t : State, CoreInv s → requesterDutyKept s = true → (∀ r, outstanding s r ≤ 1) → step s = .next t → ∀ r, outstanding t r ≤ 1

/-! ### Frames -/

/-- What the command rows leave unchanged: the configuration and every word of the ROM, the line, the trace, the drive
results and the schedule. `GRANT` is sampled in `Idle` alone. `REQ`, `CW`, `SEQ`, `OWNER` and `TX_STATE` change on
acceptance alone, `WAIT` by the held command alone, `RESP` by one response of the submitter. -/
def Obligations.CommandFrame : Prop :=
  ∀ (i : Instr) (s t : State),
    (∃ g so d, i = .txPT2260 g so d) ∨ (∃ g so d, i = .txPT2262 g so d) ∨ (∃ k g so d, i = .txUnknown k g so d) →
    exec i s = .next t →
    t.config = s.config ∧ (∀ a, t.config.rom.read a = s.config.rom.read a) ∧ t.line = s.line ∧ t.trace = s.trace ∧
    (t.platform = s.platform ∨ (s.txState = .idle ∧ t.platform = s.platform.look)) ∧
    t.platform.draws = s.platform.draws ∧ t.platform.drawCount = s.platform.drawCount ∧
    t.submitter = s.submitter ∧ t.subs = s.subs ∧ t.events = s.events ∧ t.choices = s.choices ∧
    t.choiceCount = s.choiceCount ∧
    ((t.txState = s.txState ∧ t.req = s.req ∧ t.cw = s.cw ∧ t.seq = s.seq ∧ t.owner = s.owner ∧
        ((t.wait = s.wait ∧ ∃ x, t.resp = s.resp ++ [(s.submitter, x)]) ∨
         (t.resp = s.resp ∧ ∃ cmd, encode s.config i = .cmd cmd ∧ ∀ e, e ∈ t.wait ↔ e = (s.submitter, cmd) ∨ e ∈ s.wait))) ∨
     (s.txState = .idle ∧ t.txState = .transmitting ∧ t.owner = some s.submitter ∧ t.wait = s.wait ∧ t.resp = s.resp))

/-- What the sequencer's rows leave unchanged: the configuration and every word of the ROM, the command input and the
schedule. While the transmission goes on, only `SEQ`, the line, the trace and, by one draw, the platform's inputs change;
otherwise the owner is answered, and nothing joins `WAIT`. -/
def Obligations.SequencerFrame : Prop :=
  ∀ (i : Instr) (s t : State), i = .sym0 ∨ i = .sym1 ∨ i = .symF ∨ i = .symRsv ∨ i = .sync → exec i s = .next t →
    t.config = s.config ∧ (∀ a, t.config.rom.read a = s.config.rom.read a) ∧
    t.submitter = s.submitter ∧ t.subs = s.subs ∧ t.events = s.events ∧ (∀ e, e ∈ t.wait → e ∈ s.wait) ∧
    ((t.txState = s.txState ∧ t.req = s.req ∧ t.cw = s.cw ∧ t.owner = s.owner ∧ t.wait = s.wait ∧ t.resp = s.resp ∧
        t.choices = s.choices ∧ t.choiceCount = s.choiceCount ∧
        (t.platform = s.platform ∨ t.platform = (draw s).2.platform)) ∨
     ∃ r x xs, s.owner = some r ∧ (x = .ok ∨ x = .hardwareFault) ∧ t.resp = s.resp ++ (r, x) :: xs)

/-! ### Whole transmissions -/

/-- 44_transmitter.md R180, R193: whatever the draws, the machine takes a transmission, step by step, exactly where the
pseudocode of TRANSMIT takes it, in at most `REPEAT_COUNT * (4 * CW_LEN + 2)` steps. -/
def Obligations.StepsRefineTransmit : Prop :=
  ∀ s : State, CoreInv s → s.txState = .transmitting → s.seq = some ⟨0, 0, 0, .high⟩ → s.events = [] →
    ∃ n, 1 ≤ n ∧ n ≤ s.config.repeatCount * (4 * 12 + 2) ∧ core.run n s = transmit s

/-- 44_transmitter.md R182: a transmission whose drives all succeed emits exactly `REPEAT_COUNT` repetitions of the symbols
and one sync, and answers `Ok`; then RESUME_WAITING runs. -/
def Obligations.FaultFreeTransmissionWaveform : Prop :=
  ∀ (s : State) (cw : Codeword) (r : Requester),
    s.config.wf = true → s.txState = .transmitting → s.seq = some ⟨0, 0, 0, .high⟩ → s.cw = some cw →
    validSymbols cw 0 12 = 12 → s.owner = some r → s.events = [] →
    drawsOk (s.config.repeatCount * (4 * 12 + 2)) s = true →
    let t : State := { s with
      txState := .idle, line := .low, req := none, cw := none, seq := none, owner := none,
      platform := (afterDraws (s.config.repeatCount * (4 * 12 + 2)) s).platform,
      trace := s.trace ++ transmissionSegments s.config.pUs cw s.config.repeatCount, resp := s.resp ++ [(r, .ok)] }
    core.run (s.config.repeatCount * (4 * 12 + 2)) s = resumeWaiting t ∧
    (s.wait = [] → core.run (s.config.repeatCount * (4 * 12 + 2)) s = .next t)

/-- 44_transmitter.md R193: a transmission ends within its drives, whoever else moves meanwhile: a step of the sequencer
either answers the owner or uses up one drive, and no other move but a reset changes what is left. -/
def Obligations.TransmissionEnds : Prop :=
  (∀ s : State, CoreInv s → s.txState = .transmitting →
    1 ≤ drivesLeft s ∧ drivesLeft s ≤ s.config.repeatCount * (4 * 12 + 2)) ∧
  (∀ s t : State, CoreInv s → s.txState = .transmitting → s.events = [] ∨ (∃ es, s.events = .sequencer :: es) →
    step s = .next t →
    (drivesLeft t + 1 = drivesLeft s ∧ t.resp = s.resp) ∨
    ∃ r x xs, s.owner = some r ∧ (x = .ok ∨ x = .hardwareFault) ∧ t.resp = s.resp ++ (r, x) :: xs) ∧
  (∀ (s t : State) (e : Event) (es : List Event), s.txState = .transmitting → s.events = e :: es → e ≠ .sequencer →
    isReset e = false → step s = .next t → t.txState = .transmitting ∧ drivesLeft t = drivesLeft s)

/-- A core that is `Idle` and has lost no command to a reset is quiescent, and no step of the sequencer is enabled: the core
waits (44_transmitter.md R192). -/
def Obligations.IdleCoreIsQuiescent : Prop :=
  ∀ s : State, CoreInv s → s.txState = .idle → (∀ r, submitted s r = answered s r + outstanding s r) →
    Quiescent s ∧ (s.events = [] → step s = .next s)

/-- 44_transmitter.md R189: how long a transmission lasts and how many segments it has. -/
def Obligations.TransmissionLength : Prop :=
  ∀ (pUs : Nat) (cw : Codeword), let n := validSymbols cw 0 12
    totalUs (repetitionSegments pUs cw) = (8 * n + 32) * pUs ∧ (repetitionSegments pUs cw).length = 4 * n + 2 ∧
    ∀ repeatCount, totalUs (transmissionSegments pUs cw repeatCount) = repeatCount * (8 * n + 32) * pUs

/-- The segments of a transmission alternate between high and low, the first is high, and the last is the sync low of
`31 * P_US` µs (44_transmitter.md R190). -/
def Obligations.SegmentsAlternate : Prop :=
  ∀ (pUs : Nat) (cw : Codeword) (n : Nat), 1 ≤ n →
    alternates (transmissionSegments pUs cw n) = true ∧
    (∃ us xs, transmissionSegments pUs cw n = ⟨.high, us⟩ :: xs) ∧
    (transmissionSegments pUs cw n).getLast? = some ⟨.low, 31 * pUs⟩
end

