-- ==== Sys2Proof/Laws/Encoding.lean ====
section
/-! SUPPORT. The fields of a command word, and the index check. -/

namespace Sys2Proof.Machine

/-- A command word is its four fields packed again (30_encoding.md R71). -/
theorem packCommand_fields (w : Command) : packCommand (cmdKind w) (cmdGroup w) (cmdSocket w) (cmdData w) = w := by
  have value : ∀ k g s d : Byte,
      (packCommand k g s d).toNat = ((k.toNat * 2 ^ 8 + g.toNat) * 2 ^ 8 + s.toNat) * 2 ^ 8 + d.toNat := by
    intro k g s d
    simp only [packCommand, BitVec.toNat_append]
    rw [← Nat.shiftLeft_add_eq_or_of_lt g.isLt, ← Nat.shiftLeft_add_eq_or_of_lt s.isLt,
      ← Nat.shiftLeft_add_eq_or_of_lt d.isLt]
    simp only [Nat.shiftLeft_eq]
  apply BitVec.eq_of_toNat_eq
  have := w.isLt
  rw [value]
  simp only [cmdKind, cmdGroup, cmdSocket, cmdData, BitVec.extractLsb'_toNat, Nat.shiftRight_eq_div_pow]
  omega

/-- VALIDATE as the three comparisons (40_registry_validate.md R102). -/
theorem validate_iff {k : Kind} {g s d : Byte} :
    validate k g s d = true ↔
      g.toNat < tableLen k .groups ∧ s.toNat < tableLen k .sockets ∧ d.toNat < tableLen k .dataCodes := by
  simp only [validate, Bool.and_eq_true, decide_eq_true_eq, and_assoc]

/-- LOOKUP, case by case (40_registry_validate.md R100). -/
theorem lookup_cases (c : Config) (b : Byte) :
    (b = c.kindPT2260 ∧ lookup c b = some .pt2260) ∨
    (b ≠ c.kindPT2260 ∧ b = c.kindPT2262 ∧ lookup c b = some .pt2262) ∨
    (b ≠ c.kindPT2260 ∧ b ≠ c.kindPT2262 ∧ lookup c b = none) := by
  unfold lookup
  by_cases h1 : b = c.kindPT2260
  · exact .inl ⟨h1, if_pos h1⟩
  · by_cases h2 : b = c.kindPT2262
    · exact .inr (.inl ⟨h1, h2, by rw [if_neg h1, if_pos h2]⟩)
    · exact .inr (.inr ⟨h1, h2, by rw [if_neg h1, if_neg h2]⟩)

end Sys2Proof.Machine
end

