-- ==== Sys2Proof/Laws/State.lean ====
section
/-! SUPPORT. One lemma per field of State and shared update, true by rfl, and the same for a look at the grant, a draw and a
drive. -/

namespace Sys2Proof.Machine

/-! ### `respond` -/

@[simp] theorem respond_config (r : Requester) (x : Result) (s : State) : (respond r x s).config = s.config := rfl
@[simp] theorem respond_txState (r : Requester) (x : Result) (s : State) : (respond r x s).txState = s.txState := rfl
@[simp] theorem respond_line (r : Requester) (x : Result) (s : State) : (respond r x s).line = s.line := rfl
@[simp] theorem respond_req (r : Requester) (x : Result) (s : State) : (respond r x s).req = s.req := rfl
@[simp] theorem respond_cw (r : Requester) (x : Result) (s : State) : (respond r x s).cw = s.cw := rfl
@[simp] theorem respond_seq (r : Requester) (x : Result) (s : State) : (respond r x s).seq = s.seq := rfl
@[simp] theorem respond_owner (r : Requester) (x : Result) (s : State) : (respond r x s).owner = s.owner := rfl
@[simp] theorem respond_wait (r : Requester) (x : Result) (s : State) : (respond r x s).wait = s.wait := rfl
@[simp] theorem respond_trace (r : Requester) (x : Result) (s : State) : (respond r x s).trace = s.trace := rfl
@[simp] theorem respond_resp (r : Requester) (x : Result) (s : State) : (respond r x s).resp = s.resp ++ [(r, x)] := rfl
@[simp] theorem respond_platform (r : Requester) (x : Result) (s : State) : (respond r x s).platform = s.platform := rfl
@[simp] theorem respond_submitter (r : Requester) (x : Result) (s : State) : (respond r x s).submitter = s.submitter := rfl
@[simp] theorem respond_subs (r : Requester) (x : Result) (s : State) : (respond r x s).subs = s.subs := rfl
@[simp] theorem respond_events (r : Requester) (x : Result) (s : State) : (respond r x s).events = s.events := rfl
@[simp] theorem respond_choices (r : Requester) (x : Result) (s : State) : (respond r x s).choices = s.choices := rfl
@[simp] theorem respond_choiceCount (r : Requester) (x : Result) (s : State) : (respond r x s).choiceCount = s.choiceCount := rfl

/-! ### `emit` -/

@[simp] theorem emit_config (l : Level) (us : Nat) (s : State) : (emit l us s).config = s.config := rfl
@[simp] theorem emit_txState (l : Level) (us : Nat) (s : State) : (emit l us s).txState = s.txState := rfl
@[simp] theorem emit_line (l : Level) (us : Nat) (s : State) : (emit l us s).line = s.line := rfl
@[simp] theorem emit_req (l : Level) (us : Nat) (s : State) : (emit l us s).req = s.req := rfl
@[simp] theorem emit_cw (l : Level) (us : Nat) (s : State) : (emit l us s).cw = s.cw := rfl
@[simp] theorem emit_seq (l : Level) (us : Nat) (s : State) : (emit l us s).seq = s.seq := rfl
@[simp] theorem emit_owner (l : Level) (us : Nat) (s : State) : (emit l us s).owner = s.owner := rfl
@[simp] theorem emit_wait (l : Level) (us : Nat) (s : State) : (emit l us s).wait = s.wait := rfl
@[simp] theorem emit_trace (l : Level) (us : Nat) (s : State) : (emit l us s).trace = s.trace ++ [⟨l, us⟩] := rfl
@[simp] theorem emit_resp (l : Level) (us : Nat) (s : State) : (emit l us s).resp = s.resp := rfl
@[simp] theorem emit_platform (l : Level) (us : Nat) (s : State) : (emit l us s).platform = s.platform := rfl
@[simp] theorem emit_submitter (l : Level) (us : Nat) (s : State) : (emit l us s).submitter = s.submitter := rfl
@[simp] theorem emit_subs (l : Level) (us : Nat) (s : State) : (emit l us s).subs = s.subs := rfl
@[simp] theorem emit_events (l : Level) (us : Nat) (s : State) : (emit l us s).events = s.events := rfl
@[simp] theorem emit_choices (l : Level) (us : Nat) (s : State) : (emit l us s).choices = s.choices := rfl
@[simp] theorem emit_choiceCount (l : Level) (us : Nat) (s : State) : (emit l us s).choiceCount = s.choiceCount := rfl

/-! ### `release` -/

@[simp] theorem release_config (s : State) : (release s).config = s.config := rfl
@[simp] theorem release_txState (s : State) : (release s).txState = .idle := rfl
@[simp] theorem release_line (s : State) : (release s).line = s.line := rfl
@[simp] theorem release_req (s : State) : (release s).req = none := rfl
@[simp] theorem release_cw (s : State) : (release s).cw = none := rfl
@[simp] theorem release_seq (s : State) : (release s).seq = none := rfl
@[simp] theorem release_owner (s : State) : (release s).owner = none := rfl
@[simp] theorem release_wait (s : State) : (release s).wait = s.wait := rfl
@[simp] theorem release_trace (s : State) : (release s).trace = s.trace := rfl
@[simp] theorem release_resp (s : State) : (release s).resp = s.resp := rfl
@[simp] theorem release_platform (s : State) : (release s).platform = s.platform := rfl
@[simp] theorem release_submitter (s : State) : (release s).submitter = s.submitter := rfl
@[simp] theorem release_subs (s : State) : (release s).subs = s.subs := rfl
@[simp] theorem release_events (s : State) : (release s).events = s.events := rfl
@[simp] theorem release_choices (s : State) : (release s).choices = s.choices := rfl
@[simp] theorem release_choiceCount (s : State) : (release s).choiceCount = s.choiceCount := rfl

/-! ### `present` -/

@[simp] theorem present_config (r : Requester) (w : Command) (s : State) : (present r w s).config = s.config := rfl
@[simp] theorem present_txState (r : Requester) (w : Command) (s : State) : (present r w s).txState = s.txState := rfl
@[simp] theorem present_line (r : Requester) (w : Command) (s : State) : (present r w s).line = s.line := rfl
@[simp] theorem present_req (r : Requester) (w : Command) (s : State) : (present r w s).req = s.req := rfl
@[simp] theorem present_cw (r : Requester) (w : Command) (s : State) : (present r w s).cw = s.cw := rfl
@[simp] theorem present_seq (r : Requester) (w : Command) (s : State) : (present r w s).seq = s.seq := rfl
@[simp] theorem present_owner (r : Requester) (w : Command) (s : State) : (present r w s).owner = s.owner := rfl
@[simp] theorem present_wait (r : Requester) (w : Command) (s : State) : (present r w s).wait = s.wait := rfl
@[simp] theorem present_trace (r : Requester) (w : Command) (s : State) : (present r w s).trace = s.trace := rfl
@[simp] theorem present_resp (r : Requester) (w : Command) (s : State) : (present r w s).resp = s.resp := rfl
@[simp] theorem present_platform (r : Requester) (w : Command) (s : State) : (present r w s).platform = s.platform := rfl
@[simp] theorem present_submitter (r : Requester) (w : Command) (s : State) : (present r w s).submitter = r := rfl
@[simp] theorem present_subs (r : Requester) (w : Command) (s : State) : (present r w s).subs = s.subs ++ [(r, w)] := rfl
@[simp] theorem present_events (r : Requester) (w : Command) (s : State) : (present r w s).events = s.events := rfl
@[simp] theorem present_choices (r : Requester) (w : Command) (s : State) : (present r w s).choices = s.choices := rfl
@[simp] theorem present_choiceCount (r : Requester) (w : Command) (s : State) : (present r w s).choiceCount = s.choiceCount := rfl

/-! ### A look at `GRANT`: everything but the platform's inputs is unchanged -/

/-- The level after a look is the last of the changes. -/
theorem look_grant (p : Platform) : p.look.grant = p.changes.getLastD p.grant := by
  cases h : p.grants <;> simp [Platform.look, Platform.changes, h]

@[simp] theorem look_draws (p : Platform) : p.look.draws = p.draws := by cases h : p.grants <;> simp [Platform.look, h]
@[simp] theorem look_drawCount (p : Platform) : p.look.drawCount = p.drawCount := by
  cases h : p.grants <;> simp [Platform.look, h]

/-- A grant that is there and is not withdrawn is still there. -/
theorem grant_kept : ∀ {cs : List Bool}, withdrawn true cs = false → cs.getLastD true = true
  | [], _ => rfl
  | false :: _, h => by simp [withdrawn] at h
  | true :: cs, h => by
    have := grant_kept (cs := cs) (by simpa [withdrawn] using h)
    cases cs with
    | nil => rfl
    | cons c cs => simpa [List.getLastD] using this

@[simp] theorem sampleGrant_fst (s : State) : (sampleGrant s).1 = s.platform.look.grant := rfl
@[simp] theorem sampleGrant_config (s : State) : (sampleGrant s).2.config = s.config := rfl
@[simp] theorem sampleGrant_txState (s : State) : (sampleGrant s).2.txState = s.txState := rfl
@[simp] theorem sampleGrant_line (s : State) : (sampleGrant s).2.line = s.line := rfl
@[simp] theorem sampleGrant_req (s : State) : (sampleGrant s).2.req = s.req := rfl
@[simp] theorem sampleGrant_cw (s : State) : (sampleGrant s).2.cw = s.cw := rfl
@[simp] theorem sampleGrant_seq (s : State) : (sampleGrant s).2.seq = s.seq := rfl
@[simp] theorem sampleGrant_owner (s : State) : (sampleGrant s).2.owner = s.owner := rfl
@[simp] theorem sampleGrant_wait (s : State) : (sampleGrant s).2.wait = s.wait := rfl
@[simp] theorem sampleGrant_trace (s : State) : (sampleGrant s).2.trace = s.trace := rfl
@[simp] theorem sampleGrant_resp (s : State) : (sampleGrant s).2.resp = s.resp := rfl
@[simp] theorem sampleGrant_platform (s : State) : (sampleGrant s).2.platform = s.platform.look := rfl
@[simp] theorem sampleGrant_submitter (s : State) : (sampleGrant s).2.submitter = s.submitter := rfl
@[simp] theorem sampleGrant_subs (s : State) : (sampleGrant s).2.subs = s.subs := rfl
@[simp] theorem sampleGrant_events (s : State) : (sampleGrant s).2.events = s.events := rfl
@[simp] theorem sampleGrant_choices (s : State) : (sampleGrant s).2.choices = s.choices := rfl
@[simp] theorem sampleGrant_choiceCount (s : State) : (sampleGrant s).2.choiceCount = s.choiceCount := rfl

/-! ### `draw`: everything but the platform's inputs is unchanged -/

/-- The state after a draw differs from the one before in the platform's inputs alone. -/
theorem draw_state (s : State) : (draw s).2 = { s with platform := (draw s).2.platform } := by
  rw [draw]; split <;> rfl

@[simp] theorem draw_config (s : State) : (draw s).2.config = s.config := by rw [draw_state]
@[simp] theorem draw_txState (s : State) : (draw s).2.txState = s.txState := by rw [draw_state]
@[simp] theorem draw_line (s : State) : (draw s).2.line = s.line := by rw [draw_state]
@[simp] theorem draw_req (s : State) : (draw s).2.req = s.req := by rw [draw_state]
@[simp] theorem draw_cw (s : State) : (draw s).2.cw = s.cw := by rw [draw_state]
@[simp] theorem draw_seq (s : State) : (draw s).2.seq = s.seq := by rw [draw_state]
@[simp] theorem draw_owner (s : State) : (draw s).2.owner = s.owner := by rw [draw_state]
@[simp] theorem draw_wait (s : State) : (draw s).2.wait = s.wait := by rw [draw_state]
@[simp] theorem draw_trace (s : State) : (draw s).2.trace = s.trace := by rw [draw_state]
@[simp] theorem draw_resp (s : State) : (draw s).2.resp = s.resp := by rw [draw_state]
@[simp] theorem draw_submitter (s : State) : (draw s).2.submitter = s.submitter := by rw [draw_state]
@[simp] theorem draw_subs (s : State) : (draw s).2.subs = s.subs := by rw [draw_state]
@[simp] theorem draw_events (s : State) : (draw s).2.events = s.events := by rw [draw_state]
@[simp] theorem draw_choices (s : State) : (draw s).2.choices = s.choices := by rw [draw_state]
@[simp] theorem draw_choiceCount (s : State) : (draw s).2.choiceCount = s.choiceCount := by rw [draw_state]

@[simp] theorem nextDraw_grant (p : Platform) : p.nextDraw.2.grant = p.grant := by
  rw [Platform.nextDraw]; split <;> rfl

/-- A draw leaves `GRANT` as the core sees it. -/
@[simp] theorem draw_grant (s : State) : (draw s).2.platform.grant = s.platform.look.grant := by
  rw [draw]
  split
  · rfl
  · exact nextDraw_grant _

/-- After a withdrawal the draw is `fail` (70_reset_and_hazards.md R265). -/
theorem draw_lost {s : State} (h : grantLost s = true) : draw s = (.fail, { s with platform := s.platform.look }) := by
  simp [draw, h]

/-- Without one it is the platform's own draw (43_waveform_emitter.md R164). -/
theorem draw_kept {s : State} (h : grantLost s = false) :
    draw s = (s.platform.look.nextDraw.1, { s with platform := s.platform.look.nextDraw.2 }) := by
  simp [draw, h]

/-- A drive that succeeds during a transmission finds the grant in place. -/
theorem draw_ok_granted {s : State} (ht : s.txState = .transmitting) (hg : s.platform.grant = true)
    (h : (draw s).1 = .ok) : (draw s).2.platform.grant = true := by
  have hl : grantLost s = false := by
    cases hl : grantLost s with
    | false => rfl
    | true => rw [draw_lost hl] at h; cases h
  rw [draw_grant, look_grant, hg]
  apply grant_kept
  simpa [grantLost, ht, hg] using hl

/-- A draw depends on the platform's inputs and on whether a transmission runs, and on nothing else. -/
theorem draw_congr {s s' : State} (hp : s.platform = s'.platform) (ht : s.txState = s'.txState) :
    (draw s).1 = (draw s').1 ∧ (draw s).2.platform = (draw s').2.platform := by
  have hl : grantLost s = grantLost s' := by rw [grantLost, grantLost, hp, ht]
  cases h : grantLost s' with
  | true => rw [draw_lost h, draw_lost (hl.trans h), hp]; exact ⟨rfl, rfl⟩
  | false => rw [draw_kept h, draw_kept (hl.trans h), hp]; exact ⟨rfl, rfl⟩

/-! ### `drive`: a draw and the line -/

/-- The result of a drive is the draw. -/
@[simp] theorem drive_result (l : Level) (s : State) : (drive l s).1 = (draw s).1 := rfl

@[simp] theorem drive_line (l : Level) (s : State) : (drive l s).2.line = lineAfter l (draw s).1 := rfl

@[simp] theorem drive_config (l : Level) (s : State) : (drive l s).2.config = s.config := by simp [drive]
@[simp] theorem drive_txState (l : Level) (s : State) : (drive l s).2.txState = s.txState := by simp [drive]
@[simp] theorem drive_req (l : Level) (s : State) : (drive l s).2.req = s.req := by simp [drive]
@[simp] theorem drive_cw (l : Level) (s : State) : (drive l s).2.cw = s.cw := by simp [drive]
@[simp] theorem drive_seq (l : Level) (s : State) : (drive l s).2.seq = s.seq := by simp [drive]
@[simp] theorem drive_owner (l : Level) (s : State) : (drive l s).2.owner = s.owner := by simp [drive]
@[simp] theorem drive_wait (l : Level) (s : State) : (drive l s).2.wait = s.wait := by simp [drive]
@[simp] theorem drive_trace (l : Level) (s : State) : (drive l s).2.trace = s.trace := by simp [drive]
@[simp] theorem drive_resp (l : Level) (s : State) : (drive l s).2.resp = s.resp := by simp [drive]
@[simp] theorem drive_platform (l : Level) (s : State) : (drive l s).2.platform = (draw s).2.platform := by simp [drive]
@[simp] theorem drive_submitter (l : Level) (s : State) : (drive l s).2.submitter = s.submitter := by simp [drive]
@[simp] theorem drive_subs (l : Level) (s : State) : (drive l s).2.subs = s.subs := by simp [drive]
@[simp] theorem drive_events (l : Level) (s : State) : (drive l s).2.events = s.events := by simp [drive]
@[simp] theorem drive_choices (l : Level) (s : State) : (drive l s).2.choices = s.choices := by simp [drive]
@[simp] theorem drive_choiceCount (l : Level) (s : State) : (drive l s).2.choiceCount = s.choiceCount := by simp [drive]

end Sys2Proof.Machine
end

