-- ==== Sys2Proof/Laws/Memory.lean ====
section
/-! SUPPORT. The profile ROM: reads, the canonical form, and what a well-formed configuration says of it. -/

namespace Sys2Proof.Machine

/-- A listed address reads as its word. -/
theorem read_of_mem {m : Memory} (h : m.wf = true) {c : Host.Cell} (hc : c ∈ m) : m.read c.1 = some c.2 := by
  have rising : ∀ {m : Memory} {d : Host.Cell}, Memory.wf (d :: m) = true → ∀ e ∈ m, d.1 < e.1 := by
    intro m
    induction m with
    | nil => simp
    | cons e m ih =>
      intro d h x hx
      simp only [Memory.wf, Bool.and_eq_true, decide_eq_true_eq] at h
      rcases List.mem_cons.mp hx with rfl | hx
      · exact h.1
      · exact lt_trans h.1 (ih h.2 x hx)
  induction m with
  | nil => cases hc
  | cons d m ih =>
    have tail : Memory.wf m = true := by
      cases m with
      | nil => rfl
      | cons e m => simp only [Memory.wf, Bool.and_eq_true] at h; exact h.2
    rcases List.mem_cons.mp hc with rfl | hc
    · simp [Memory.read]
    · have := rising h c hc
      rw [Memory.read, if_neg (by omega)]
      exact ih tail hc

/-- An address reads as something exactly when it is listed. -/
theorem read_isSome_iff (m : Memory) (a : Nat) : (m.read a).isSome = true ↔ a ∈ m.map Prod.fst := by
  induction m with
  | nil => simp [Memory.read, Memory.unlisted]
  | cons c m ih =>
    rw [Memory.read]
    split
    · rename_i h; simp [← h]
    · rename_i h; simp only [ih, List.map_cons, List.mem_cons]; exact ⟨.inr, fun x => x.resolve_left (Ne.symm h)⟩

/-- The word an address reads as is listed. -/
theorem mem_of_read {m : Memory} {a : Nat} {b : Byte} (h : m.read a = some b) : (a, b) ∈ m := by
  induction m with
  | nil => simp [Memory.read, Memory.unlisted] at h
  | cons c m ih =>
    rw [Memory.read] at h
    split at h
    · rename_i hc; cases h; subst hc; exact List.mem_cons_self ..
    · exact List.mem_cons_of_mem _ (ih h)

/-- `RomRead` is `MemRead` of one word (00_scope.md R9). -/
theorem romRead_eq_memRead {m : Memory} {k : Kind} {t : Table} {i : Byte} (h : i.toNat < 16) :
    memRead m (romaddr k t (i.setWidth 4)).toNat 1 = (romRead m k t i).map fun w => [w] := by
  simp only [memRead, romRead, h, if_true]
  cases Memory.read m _ <;> rfl

/-- The canonical form depends on the addresses alone. -/
theorem wf_congr : ∀ {m m' : Memory}, m.map Prod.fst = m'.map Prod.fst → Memory.wf m = Memory.wf m'
  | [], [], _ => rfl
  | [_], [_], _ => rfl
  | [_], _ :: _ :: _, h => by simp at h
  | _ :: _ :: _, [_], h => by simp at h
  | c :: d :: m, c' :: d' :: m', h => by
    simp only [List.map_cons, List.cons.injEq] at h
    rw [Memory.wf, Memory.wf, h.1, h.2.1, wf_congr (m := d :: m) (m' := d' :: m') (by simp [h.2.1, h.2.2])]

/-- Every check of a well-formed configuration holds. -/
theorem passes_of_wf {c : Config} (h : c.wf = true) (k : ConfigCheck) : c.passes k = true := by
  simp only [Config.wf, List.all_eq_true] at h
  exact h k (by cases k <;> decide)

/-- The ROM of a well-formed configuration lists exactly the addresses of the tables. -/
theorem rom_addresses {c : Config} (h : c.wf = true) : c.rom.map Prod.fst = romAddresses := by
  simpa [Config.passes] using passes_of_wf h .sizes

/-- The ROM of a well-formed configuration is in canonical form. No operation of the machine writes it, so it stays. -/
theorem rom_canonical {c : Config} (h : c.wf = true) : c.rom.wf = true := by
  have image : romAddresses = (romImage (default : LegalOpenCells).cells).map Prod.fst := by decide
  rw [wf_congr ((rom_addresses h).trans image)]
  decide

/-- A validated index names a cell of a well-formed ROM (41_codeword.md R120). -/
theorem romRead_isSome {c : Config} (h : c.wf = true) (k : Kind) (t : Table) (i : Byte) :
    (romRead c.rom k t i).isSome = true ↔ i.toNat < tableLen k t := by
  rw [romRead]
  split
  · rw [read_isSome_iff, rom_addresses h]
    revert k t i
    have all : ∀ (k : Fin 2) (t : Fin 3) (n : Fin 16),
        let kind := if k = 0 then Kind.pt2260 else .pt2262
        let table := if t = 0 then Table.groups else if t = 1 then .sockets else .dataCodes
        (romaddr kind table (BitVec.ofNat 4 n.val)).toNat ∈ romAddresses ↔ n.val < tableLen kind table := by decide
    intro k t i hi
    have e : (i.setWidth 4 : BitVec 4) = BitVec.ofNat 4 i.toNat := by
      apply BitVec.eq_of_toNat_eq; simp [BitVec.toNat_setWidth]
    rw [e]
    cases k <;> cases t
    · exact all 0 0 ⟨_, hi⟩
    · exact all 0 1 ⟨_, hi⟩
    · exact all 0 2 ⟨_, hi⟩
    · exact all 1 0 ⟨_, hi⟩
    · exact all 1 1 ⟨_, hi⟩
    · exact all 1 2 ⟨_, hi⟩
  · rename_i hi
    have : tableLen k t ≤ 16 := by cases k <;> cases t <;> decide
    simp [Memory.unlisted]
    omega

/-- BUILD answers a codeword for validated indices of a well-formed configuration (41_codeword.md R120). -/
theorem build_isSome {c : Config} (h : c.wf = true) {k : Kind} {g s d : Byte} (hv : validate k g s d = true) :
    ∃ cw, build c.rom k g s d = some cw := by
  simp only [validate, Bool.and_eq_true, decide_eq_true_eq] at hv
  obtain ⟨fg, eg⟩ := Option.isSome_iff_exists.mp ((romRead_isSome h k .groups g).mpr hv.1.1)
  obtain ⟨fs, es⟩ := Option.isSome_iff_exists.mp ((romRead_isSome h k .sockets s).mpr hv.1.2)
  obtain ⟨fd, ed⟩ := Option.isSome_iff_exists.mp ((romRead_isSome h k .dataCodes d).mpr hv.2)
  exact ⟨fg ++ fs ++ fd, by simp only [build, eg, es, ed]⟩

/-- The configuration of `State.reset` is well formed, whatever its free values. -/
theorem forReset_wf : Config.forReset.wf = true := by
  have ho := Config.freeCells.legal
  simp only [Bool.and_eq_true] at ho
  have p : ∀ k, Config.forReset.passes k = true := by
    intro k
    cases k
    case fragLen => simp [Config.passes, fragSymbols]
    case alphabet => exact ho.1
    case distinct => exact ho.2
    case kindCodes => exact Config.freeKindCodes.legal
    all_goals rfl
  simp [Config.wf, p]

end Sys2Proof.Machine
end

