-- ==== Sys2Proof/Laws/Ops.lean ====
section
/-! SUPPORT. What each shared operation can do, said once: acceptance, held commands, the two ends of a transmission, and
one step of the sequencer. -/

namespace Sys2Proof.Machine

/-! ### `WAIT` as a set -/

theorem waitKey_inj {a b : Requester × Command} (h : waitKey a = waitKey b) : a = b := by
  have split : ∀ m n x y : Nat, x < 2 ^ 32 → y < 2 ^ 32 → m * 2 ^ 32 + x = n * 2 ^ 32 + y → m = n ∧ x = y := by
    intro m n x y _ _ _
    omega
  obtain ⟨hr, hw⟩ := split _ _ _ _ a.2.isLt b.2.isLt h
  exact Prod.ext hr (BitVec.eq_of_toNat_eq hw)

/-- `WAIT ∪ {e}` holds `e` and what was held (40_registry_validate.md R105). -/
theorem mem_waitInsert {e x : Requester × Command} : ∀ {w : List (Requester × Command)},
    x ∈ waitInsert e w ↔ x = e ∨ x ∈ w
  | [] => by simp [waitInsert]
  | y :: ys => by
    rw [waitInsert]
    split
    · simp
    · split
      · rw [List.mem_cons, mem_waitInsert, List.mem_cons]; exact or_left_comm
      · have : e = y := waitKey_inj (by omega)
        subst this
        simp

/-- In a strictly rising list the head is below the rest. -/
theorem waitSorted_head {x : Requester × Command} {w : List (Requester × Command)} (h : waitSorted (x :: w) = true) :
    ∀ y ∈ w, waitKey x < waitKey y := by
  induction w generalizing x with
  | nil => simp
  | cons z zs ih =>
    simp only [waitSorted, Bool.and_eq_true, decide_eq_true_eq] at h
    intro y hy
    rcases List.mem_cons.mp hy with rfl | hy
    · exact h.1
    · exact lt_trans h.1 (ih h.2 y hy)

theorem waitSorted_tail {x : Requester × Command} {w : List (Requester × Command)} (h : waitSorted (x :: w) = true) :
    waitSorted w = true := by
  cases w with
  | nil => rfl
  | cons y ys => simp only [waitSorted, Bool.and_eq_true] at h; exact h.2

theorem waitSorted_cons {x : Requester × Command} {w : List (Requester × Command)} (h : ∀ y ∈ w, waitKey x < waitKey y)
    (hw : waitSorted w = true) : waitSorted (x :: w) = true := by
  cases w with
  | nil => rfl
  | cons y ys => simp only [waitSorted, Bool.and_eq_true, decide_eq_true_eq]; exact ⟨h y (List.mem_cons_self ..), hw⟩

/-- An insertion keeps the canonical form. -/
theorem waitSorted_insert {e : Requester × Command} : ∀ {w : List (Requester × Command)}, waitSorted w = true →
    waitSorted (waitInsert e w) = true
  | [], _ => rfl
  | y :: ys, h => by
    rw [waitInsert]
    split
    · rename_i hlt
      exact waitSorted_cons (fun z hz => by
        rcases List.mem_cons.mp hz with rfl | hz
        · exact hlt
        · exact lt_trans hlt (waitSorted_head h z hz)) h
    · split
      · rename_i hlt
        refine waitSorted_cons (fun z hz => ?_) (waitSorted_insert (waitSorted_tail h))
        rcases mem_waitInsert.mp hz with rfl | hz
        · exact hlt
        · exact waitSorted_head h z hz
      · exact h

/-- Taking an element out keeps the canonical form. -/
theorem waitSorted_eraseIdx : ∀ {w : List (Requester × Command)} {i : Nat}, waitSorted w = true →
    waitSorted (w.eraseIdx i) = true
  | [], _, _ => rfl
  | _ :: _, 0, h => waitSorted_tail h
  | _ :: ys, _ + 1, h =>
    waitSorted_cons (fun z hz => waitSorted_head h z (List.eraseIdx_subset hz)) (waitSorted_eraseIdx (w := ys) (waitSorted_tail h))

/-- How an insertion counts: one more, unless the pair was already held (log 11). -/
theorem countP_waitInsert (p : Requester × Command → Bool) {e : Requester × Command} :
    ∀ {w : List (Requester × Command)}, e ∉ w → (waitInsert e w).countP p = w.countP p + if p e then 1 else 0
  | [], _ => by simp [waitInsert, List.countP_cons]
  | y :: ys, h => by
    have hne : e ≠ y ∧ e ∉ ys := by simpa using h
    rw [waitInsert]
    split
    · rw [List.countP_cons]
    · split
      · rw [List.countP_cons, countP_waitInsert p hne.2, List.countP_cons]; omega
      · exact absurd (waitKey_inj (by omega)) hne.1

/-! ### Acceptance -/

/-- Everything ACCEPT can do. -/
theorem accept_next {r : Requester} {k : Kind} {cmd : Command} {s t : State} :
    accept r k cmd s = .next t ↔
      ∃ cw, build s.config.rom k (cmdGroup cmd) (cmdSocket cmd) (cmdData cmd) = some cw ∧ t = accepted r cmd cw s := by
  rw [accept]
  cases build s.config.rom k (cmdGroup cmd) (cmdSocket cmd) (cmdData cmd) with
  | none => simp
  | some cw => simp [eq_comm]

/-! ### Held commands -/

theorem choose_state (n : Nat) (s : State) :
    ∃ cs c, (choose n s).2 = { s with choices := cs, choiceCount := c } := by
  rw [choose]; split <;> exact ⟨_, _, rfl⟩

theorem choose_lt {n : Nat} (h : 0 < n) (s : State) : (choose n s).1 < n := by
  rw [choose]; split <;> exact Nat.mod_lt _ h

/-- One round of RESUME_WAITING: a held command is chosen; with the grant it is accepted, without it it is answered
`ResourceUnavailable` and the next round follows (44_transmitter.md R188). -/
theorem resumeWaiting_round {s : State} (hw : s.wait ≠ []) :
    ∃ i e cs c, s.wait[i]? = some e ∧ (∀ j js, s.choices = j :: js → j < s.wait.length → i = j) ∧
      ((sampleGrant s).1 = true → resumeWaiting s =
        match lookup s.config (cmdKind e.2) with
        | some k => accept e.1 k e.2
            { s with wait := s.wait.eraseIdx i, choices := cs, choiceCount := c, platform := s.platform.look }
        | none => .fault .romCellAbsent) ∧
      ((sampleGrant s).1 = false → resumeWaiting s = resumeWaiting (respond e.1 .resourceUnavailable
        { s with wait := s.wait.eraseIdx i, choices := cs, choiceCount := c, platform := s.platform.look })) := by
  obtain ⟨e, es, he⟩ : ∃ e es, s.wait = e :: es := by
    cases h : s.wait with
    | nil => exact absurd h hw
    | cons e es => exact ⟨e, es, rfl⟩
  obtain ⟨cs, c, hc⟩ := choose_state (es.length + 1) s
  have hi : (choose (es.length + 1) s).1 < (e :: es).length := choose_lt (Nat.succ_pos es.length) s
  have hget : (e :: es).getD (choose (es.length + 1) s).1 e = (e :: es)[(choose (es.length + 1) s).1] := by
    rw [List.getD_eq_getElem?_getD, List.getElem?_eq_getElem hi]; rfl
  have hrun : resumeWaiting s = resumeRounds (es.length + 1) s := by rw [resumeWaiting, he]; rfl
  refine ⟨(choose (es.length + 1) s).1, (e :: es)[(choose (es.length + 1) s).1], cs, c, ?_, ?_, fun hg => ?_, fun hg => ?_⟩
  · rw [he, List.getElem?_eq_getElem hi]
  · intro j js hj hlt
    rw [choose, hj]
    exact Nat.mod_eq_of_lt (by simpa [he] using hlt)
  · rw [hrun, resumeRounds, he]
    simp only [hc, hget]
    exact (if_pos hg).trans rfl
  · rw [hrun, resumeRounds, he]
    simp only [hc, hget]
    refine (if_neg (by simpa using hg)).trans ?_
    rw [resumeWaiting, respond_wait, List.length_eraseIdx_of_lt hi]
    rfl

/-- With nothing held, RESUME_WAITING does nothing. -/
theorem resumeWaiting_empty {s : State} (hw : s.wait = []) : resumeWaiting s = .next s := by
  simp [resumeWaiting, hw, resumeRounds]

/-- Everything RESUME_WAITING can do when it answers a next state: some held commands are answered
`ResourceUnavailable`, in any order, and then either none is left or one more is accepted. -/
theorem resumeWaiting_next {s t : State} (h : resumeWaiting s = .next t) :
    (∃ (rejected : List (Requester × Command)) (cs : List Nat) (c : Nat) (p : Platform), rejected.Perm s.wait ∧
      t = { s with
        wait := [], choices := cs, choiceCount := c, platform := p,
        resp := s.resp ++ rejected.map fun e => (e.1, Result.resourceUnavailable) }) ∨
    (∃ (rejected w : List (Requester × Command)) (e : Requester × Command) (k : Kind) (cw : Codeword) (cs : List Nat)
      (c : Nat) (p : Platform), (e :: (rejected ++ w)).Perm s.wait ∧
      (waitSorted s.wait = true → waitSorted w = true) ∧ lookup s.config (cmdKind e.2) = some k ∧
      build s.config.rom k (cmdGroup e.2) (cmdSocket e.2) (cmdData e.2) = some cw ∧ p.grant = true ∧
      t = accepted e.1 e.2 cw { s with
        wait := w, choices := cs, choiceCount := c, platform := p,
        resp := s.resp ++ rejected.map fun e => (e.1, Result.resourceUnavailable) }) := by
  generalize hn : s.wait.length = n
  induction n generalizing s with
  | zero =>
    have hw := List.length_eq_zero_iff.mp hn
    rw [resumeWaiting_empty hw] at h
    cases h
    exact .inl ⟨[], t.choices, t.choiceCount, t.platform, by simp [hw], by rw [List.map_nil, List.append_nil, ← hw]⟩
  | succ n ih =>
    have hw : s.wait ≠ [] := by intro hw; simp [hw] at hn
    obtain ⟨i, e, cs, c, hi, _, hyes, hno⟩ := resumeWaiting_round hw
    obtain ⟨hlt, he⟩ := List.getElem?_eq_some_iff.mp hi
    have hperm : (e :: s.wait.eraseIdx i).Perm s.wait := he ▸ List.getElem_cons_eraseIdx_perm hlt
    cases hg : (sampleGrant s).1 with
    | true =>
      rw [hyes hg] at h
      split at h
      · rename_i k hk
        obtain ⟨cw, hb, ht⟩ := accept_next.mp h
        exact .inr ⟨[], s.wait.eraseIdx i, e, k, cw, cs, c, s.platform.look, by simpa using hperm,
          waitSorted_eraseIdx, hk, hb, by simpa using hg, by simpa using ht⟩
      · cases h
    | false =>
      rw [hno hg] at h
      rcases ih h (by simp [List.length_eraseIdx_of_lt hlt, hn]) with
        ⟨rejected, cs', c', p, hp, rfl⟩ | ⟨rejected, w, e', k, cw, cs', c', p, hp, hs, hk, hb, hpg, rfl⟩
      · refine .inl ⟨e :: rejected, cs', c', p, (List.Perm.cons _ hp).trans hperm, ?_⟩
        simp [respond]
      · refine .inr ⟨e :: rejected, w, e', k, cw, cs', c', p, ?_, fun h => hs (waitSorted_eraseIdx h), hk, hb, hpg, ?_⟩
        · exact (List.Perm.swap e e' (rejected ++ w)).trans ((List.Perm.cons _ hp).trans hperm)
        · simp [respond]

/-- While the platform gives no grant, RESUME_WAITING answers every held command `ResourceUnavailable`, in any order
(44_transmitter.md R188). -/
theorem resumeWaiting_ungranted {s : State} {css : List (List Bool)} (hg : s.platform.grant = false)
    (hc : s.platform.grants = List.replicate s.wait.length [] ++ css) :
    ∃ (order : List (Requester × Command)) (cs : List Nat) (c : Nat), order.Perm s.wait ∧
      resumeWaiting s = .next { s with
        wait := [], choices := cs, choiceCount := c, platform := { s.platform with grants := css },
        resp := s.resp ++ order.map fun e => (e.1, Result.resourceUnavailable) } := by
  generalize hn : s.wait.length = n at hc
  induction n generalizing s with
  | zero =>
    have hw := List.length_eq_zero_iff.mp hn
    refine ⟨[], s.choices, s.choiceCount, by simp [hw], ?_⟩
    have hp : s.platform = { s.platform with grants := css } := by
      have hc' : s.platform.grants = css := by simpa using hc
      rw [← hc']
    rw [resumeWaiting_empty hw, List.map_nil, List.append_nil, ← hw, ← hp]
  | succ n ih =>
    have hw : s.wait ≠ [] := by intro hw; simp [hw] at hn
    obtain ⟨i, e, cs, c, hi, _, _, hno⟩ := resumeWaiting_round hw
    obtain ⟨hlt, he⟩ := List.getElem?_eq_some_iff.mp hi
    have hlook : s.platform.look = { s.platform with grants := List.replicate n [] ++ css } := by
      rw [Platform.look, hc]; rfl
    obtain ⟨order, cs', c', hp, hr⟩ := ih
      (s := respond e.1 .resourceUnavailable
        { s with wait := s.wait.eraseIdx i, choices := cs, choiceCount := c, platform := s.platform.look })
      (by simp [hlook, hg]) (by simp [List.length_eraseIdx_of_lt hlt, hn]) (by simp [hlook])
    refine ⟨e :: order, cs', c', (List.Perm.cons _ hp).trans (he ▸ List.getElem_cons_eraseIdx_perm hlt), ?_⟩
    rw [hno (by simp [hlook, hg]), hr]
    simp [respond, hlook]

/-! ### The ends of a transmission -/

/-- Everything FINISH can do. -/
theorem finish_next {s t : State} (h : finish s = .next t) :
    ∃ r, s.owner = some r ∧ resumeWaiting (respond r .ok (release s)) = .next t := by
  rw [finish] at h
  split at h
  · cases h
  · exact ⟨_, ‹_›, h⟩

/-- Everything FAULT_EXIT can do. -/
theorem faultExit_next {s t : State} (h : faultExit s = .next t) :
    ∃ r, s.owner = some r ∧ resumeWaiting (respond r .hardwareFault (release (drive .low s).2)) = .next t := by
  rw [faultExit] at h
  split at h
  · cases h
  · exact ⟨_, ‹_›, h⟩

/-! ### One step of the sequencer -/

/-- Everything the step past a position can do. -/
theorem nextPosition_next {q : SeqPos} {s t : State} (h : nextPosition q s = .next t) :
    (q.pos < cwLen ∧ t = { s with seq := some ⟨q.rep, q.pos + 1, 0, .high⟩ }) ∨
    (cwLen ≤ q.pos ∧ q.rep + 1 < s.config.repeatCount ∧ t = { s with seq := some ⟨q.rep + 1, 0, 0, .high⟩ }) ∨
    (cwLen ≤ q.pos ∧ s.config.repeatCount ≤ q.rep + 1 ∧ finish s = .next t) := by
  rw [nextPosition] at h
  split at h
  · cases h; exact .inl ⟨‹_›, rfl⟩
  · split at h
    · cases h; exact .inr (.inl ⟨by omega, ‹_›, rfl⟩)
    · exact .inr (.inr ⟨by omega, by omega, h⟩)

/-- Everything one half of a pair can do. -/
theorem playHalf_next {p : Pair} {last : Bool} {q : SeqPos} {s t : State} (h : playHalf p last q s = .next t) :
    ((draw s).1 = .fail ∧ faultExit (drive q.phase s).2 = .next t) ∨
    ((draw s).1 = .ok ∧ q.phase = .high ∧
      t = { emit .high (halfUs s.config.pUs p .high) (drive .high s).2 with seq := some { q with phase := .low } }) ∨
    ((draw s).1 = .ok ∧ q.phase = .low ∧ last = false ∧
      t = { emit .low (halfUs s.config.pUs p .low) (drive .low s).2 with seq := some ⟨q.rep, q.pos, q.pair + 1, .high⟩ }) ∨
    ((draw s).1 = .ok ∧ q.phase = .low ∧ last = true ∧
      nextPosition q (emit .low (halfUs s.config.pUs p .low) (drive .low s).2) = .next t) := by
  have hr : (drive q.phase s).1 = (draw s).1 := rfl
  rw [playHalf] at h
  split at h
  · rename_i s' hs
    exact .inl ⟨by simp [← hr, hs], by simpa [hs] using h⟩
  · rename_i s' hs
    have hok : (draw s).1 = .ok := by simp [← hr, hs]
    have hs' : s' = (drive q.phase s).2 := by simp [hs]
    subst hs'
    rw [nextHalf] at h
    split at h
    · rename_i hp
      rw [hp] at h
      cases h
      exact .inr (.inl ⟨hok, hp, rfl⟩)
    · rename_i hp
      rw [hp] at h
      split at h
      · rename_i hl
        exact .inr (.inr (.inr ⟨hok, hp, hl, h⟩))
      · rename_i hl
        cases h
        exact .inr (.inr (.inl ⟨hok, hp, by simpa using hl, rfl⟩))

/-- Everything one step at a position can do. -/
theorem playPairs_next {pairs : List Pair} {s t : State} (h : playPairs pairs s = .next t) :
    ∃ q, s.seq = some q ∧
      ((pairs[q.pair]? = none ∧ nextPosition q s = .next t) ∨
       ∃ p, pairs[q.pair]? = some p ∧ playHalf p (decide (pairs.length ≤ q.pair + 1)) q s = .next t) := by
  rw [playPairs] at h
  split at h
  · cases h
  · rename_i q hq
    split at h
    · exact ⟨q, hq, .inl ⟨‹_›, h⟩⟩
    · exact ⟨q, hq, .inr ⟨_, ‹_›, h⟩⟩

/-! ### The commands -/

/-- Everything SUBMIT of a command with a profile can do. -/
theorem submitProfile_next {k : Kind} {cmd : Command} {s t : State} (h : submitProfile k cmd s = .next t) :
    (validate k (cmdGroup cmd) (cmdSocket cmd) (cmdData cmd) = false ∧ t = respond s.submitter .outOfRange s) ∨
    (validate k (cmdGroup cmd) (cmdSocket cmd) (cmdData cmd) = true ∧
      ((s.txState = .transmitting ∧ s.config.busyPolicy = .reject ∧ t = respond s.submitter .resourceUnavailable s) ∨
       (s.txState = .transmitting ∧ s.config.busyPolicy = .block ∧
          t = { s with wait := waitInsert (s.submitter, cmd) s.wait }) ∨
       (s.txState = .idle ∧ (sampleGrant s).1 = false ∧
          t = respond s.submitter .resourceUnavailable (sampleGrant s).2) ∨
       (s.txState = .idle ∧ (sampleGrant s).1 = true ∧ accept s.submitter k cmd (sampleGrant s).2 = .next t))) := by
  rw [submitProfile] at h
  split at h
  · rename_i hv
    refine .inr ⟨hv, ?_⟩
    split at h
    · rename_i htx
      split at h
      · rename_i hp; cases h; exact .inl ⟨htx, hp, rfl⟩
      · rename_i hp; cases h; exact .inr (.inl ⟨htx, hp, rfl⟩)
    · rename_i htx
      split at h
      · rename_i hg; exact .inr (.inr (.inr ⟨htx, hg, h⟩))
      · rename_i hg; cases h; exact .inr (.inr (.inl ⟨htx, by simpa using hg, rfl⟩))
  · rename_i hv
    cases h
    exact .inl ⟨by simpa using hv, rfl⟩

end Sys2Proof.Machine
end

