-- ==== Sys2Proof/Laws/PerInstr.lean ====
section
/-! SUPPORT. A statement made for every instruction: its code has the width that spec/opcode_table.json gives its row. -/

namespace Sys2Proof.Laws.EncodeFormat

open Sys2Proof

/-- The width of a code in bits (30_encoding.md R70). -/
def codeBits : Code → Nat
  | .cmd _ => 32
  | .sym _ => 2
  | .syncSlot => 0

/-- The width opcode_table.json gives a row. -/
def tableBits : Instr → Nat
  | .txPT2260 _ _ _ => 32
  | .txPT2262 _ _ _ => 32
  | .txUnknown _ _ _ _ => 32
  | .sym0 => 2
  | .sym1 => 2
  | .symF => 2
  | .symRsv => 2
  | .sync => 0

/-- The code of an instruction has its row's width, under every configuration. -/
def Statement (i : Instr) : Prop := ∀ c : Config, codeBits (encode c i) = tableBits i

theorem txPT2260 (group socket data : Byte) : Statement (.txPT2260 group socket data) := fun _ => rfl
theorem txPT2262 (group socket data : Byte) : Statement (.txPT2262 group socket data) := fun _ => rfl
theorem txUnknown (kind group socket data : Byte) : Statement (.txUnknown kind group socket data) := fun _ => rfl
theorem sym0 : Statement .sym0 := fun _ => rfl
theorem sym1 : Statement .sym1 := fun _ => rfl
theorem symF : Statement .symF := fun _ => rfl
theorem symRsv : Statement .symRsv := fun _ => rfl
theorem sync : Statement .sync := fun _ => rfl

end Sys2Proof.Laws.EncodeFormat
end

