-- ==== Sys2Proof/Laws/Step.lean ====
section
/-! SUPPORT. What an instruction of the sequencer, a command, and a step can do, each said once. -/

namespace Sys2Proof.Machine

/-- A transmission that goes on: `SEQ` moves, at most one segment is appended, the line and, by one draw, the platform's
inputs may change, and nothing else does. -/
structure GoesOn (s t : State) : Prop where
  config : t.config = s.config
  txState : t.txState = s.txState
  req : t.req = s.req
  cw : t.cw = s.cw
  owner : t.owner = s.owner
  wait : t.wait = s.wait
  resp : t.resp = s.resp
  platform : t.platform = s.platform ∨ t.platform = (draw s).2.platform
  submitter : t.submitter = s.submitter
  subs : t.subs = s.subs
  events : t.events = s.events
  choices : t.choices = s.choices
  choiceCount : t.choiceCount = s.choiceCount
  trace : ∃ xs, t.trace = s.trace ++ xs ∧ xs.length ≤ 1
  seq : t.seq.isSome = true

/-- A transmission that has ended with result `x` for its owner `r`, before RESUME_WAITING. -/
structure Ended (s u : State) (r : Requester) (x : Result) : Prop where
  owner : s.owner = some r
  result : x = .ok ∨ x = .hardwareFault
  config : u.config = s.config
  txState : u.txState = .idle
  registers : u.req = none ∧ u.cw = none ∧ u.seq = none ∧ u.owner = none
  wait : u.wait = s.wait
  resp : u.resp = s.resp ++ [(r, x)]
  submitter : u.submitter = s.submitter
  subs : u.subs = s.subs
  events : u.events = s.events
  choices : u.choices = s.choices
  choiceCount : u.choiceCount = s.choiceCount
  trace : ∃ xs, u.trace = s.trace ++ xs ∧ xs.length ≤ 1

/-- The rows the sequencer runs. -/
def isSequencerRow : Instr → Bool
  | .txPT2260 _ _ _ => false
  | .txPT2262 _ _ _ => false
  | .txUnknown _ _ _ _ => false
  | .sym0 => true
  | .sym1 => true
  | .symF => true
  | .symRsv => true
  | .sync => true

/-- A sequencer's row plays its pulse pairs. -/
theorem exec_sequencerRow {i : Instr} (h : isSequencerRow i = true) (s : State) : exec i s = playPairs (instrPairs i) s := by
  cases i <;> first | rfl | cases h

/-- What the sequencer decodes is a row of its own. -/
theorem decode_sequencerRow (c : Config) (cw : Codeword) (q : SeqPos) :
    isSequencerRow (decode c (if q.pos < cwLen then .sym (cwSymbol cw q.pos) else .syncSlot)) = true := by
  split
  · simp only [decode, decodeSymbol]
    repeat' split
    all_goals rfl
  · rfl

theorem faultExit_ended {s u t : State} (h : faultExit u = .next t)
    (he : u.owner = s.owner ∧ u.config = s.config ∧ u.wait = s.wait ∧ u.resp = s.resp ∧
      u.submitter = s.submitter ∧ u.subs = s.subs ∧ u.events = s.events ∧ u.choices = s.choices ∧
      u.choiceCount = s.choiceCount ∧ u.trace = s.trace) :
    ∃ u r, Ended s u r .hardwareFault ∧ resumeWaiting u = .next t := by
  obtain ⟨h1, h2, h3, h4, h5, h6, h7, h8, h9, h10⟩ := he
  obtain ⟨r, ho, hr⟩ := faultExit_next h
  refine ⟨_, r, ?_, hr⟩
  constructor
  · rw [← h1]; exact ho
  · exact .inr rfl
  case registers => exact ⟨rfl, rfl, rfl, rfl⟩
  case trace => exact ⟨[], by simp [h10], by simp⟩
  all_goals simp [*]

theorem nextPosition_cases {s u t : State} {q : SeqPos} (h : nextPosition q u = .next t)
    (hp : u.platform = s.platform ∨ u.platform = (draw s).2.platform)
    (he : u.owner = s.owner ∧ u.config = s.config ∧ u.wait = s.wait ∧ u.resp = s.resp ∧
      u.submitter = s.submitter ∧ u.subs = s.subs ∧ u.events = s.events ∧ u.choices = s.choices ∧
      u.choiceCount = s.choiceCount ∧ u.txState = s.txState ∧ u.req = s.req ∧ u.cw = s.cw ∧
      ∃ xs, u.trace = s.trace ++ xs ∧ xs.length ≤ 1) :
    GoesOn s t ∨ ∃ u r, Ended s u r .ok ∧ resumeWaiting u = .next t := by
  obtain ⟨h1, h2, h3, h4, h5, h6, h7, h8, h9, h10, h11, h12, h13⟩ := he
  rcases nextPosition_next h with ⟨_, rfl⟩ | ⟨_, _, rfl⟩ | ⟨_, _, hf⟩
  · exact .inl ⟨h2, h10, h11, h12, h1, h3, h4, hp, h5, h6, h7, h8, h9, h13, rfl⟩
  · exact .inl ⟨h2, h10, h11, h12, h1, h3, h4, hp, h5, h6, h7, h8, h9, h13, rfl⟩
  · obtain ⟨r, ho, hr⟩ := finish_next hf
    refine .inr ⟨_, r, ?_, hr⟩
    exact ⟨h1 ▸ ho, .inl rfl, h2, rfl, ⟨rfl, rfl, rfl, rfl⟩, h3, by rw [respond_resp, release_resp, h4], h5, h6, h7, h8, h9,
      h13⟩

/-- Everything a sequencer's row can do: the transmission goes on, or it ends and RESUME_WAITING runs. -/
theorem exec_sequencerRow_next {i : Instr} {s t : State} (hi : isSequencerRow i = true) (h : exec i s = .next t) :
    GoesOn s t ∨ ∃ u r x, Ended s u r x ∧ resumeWaiting u = .next t := by
  rw [exec_sequencerRow hi] at h
  obtain ⟨q, hq, ⟨_, hp⟩ | ⟨p, _, hh⟩⟩ := playPairs_next h
  · rcases nextPosition_cases (s := s) hp (.inl rfl) ⟨rfl, rfl, rfl, rfl, rfl, rfl, rfl, rfl, rfl, rfl, rfl, rfl, [], by simp, by simp⟩
      with h | ⟨u, r, h, hr⟩
    · exact .inl h
    · exact .inr ⟨u, r, .ok, h, hr⟩
  · rcases playHalf_next hh with ⟨_, hf⟩ | ⟨_, _, rfl⟩ | ⟨_, _, _, rfl⟩ | ⟨_, _, _, hn⟩
    · obtain ⟨u, r, h, hr⟩ := faultExit_ended (s := s) hf (by simp)
      exact .inr ⟨u, r, _, h, hr⟩
    · left; constructor <;> simp
    · left; constructor <;> simp
    · rcases nextPosition_cases (s := s) hn (by simp) (by simp) with h | ⟨u, r, h, hr⟩
      · exact .inl h
      · exact .inr ⟨u, r, .ok, h, hr⟩

/-- A command executes as SUBMIT of its profile, or is answered `UnknownEncoder`. -/
theorem exec_command (c : Config) (w : Command) (s : State) (hc : s.config = c) :
    exec (decode c (.cmd w)) s =
      match lookup c (cmdKind w) with
      | some k => submitProfile k w s
      | none => raise .unknownEncoder s := by
  subst hc
  have hp := packCommand_fields w
  simp only [decode, decodeCommand, lookup]
  by_cases h1 : cmdKind w = s.config.kindPT2260
  · simp only [h1, if_true, exec, execTxPT2260]
    rw [← h1, hp]
  · by_cases h2 : cmdKind w = s.config.kindPT2262
    · simp only [h2, if_true, exec, execTxPT2262]
      rw [if_neg (by rw [← h2]; exact h1)]
      simp only
      rw [← h2, hp]
    · simp only [if_neg h1, if_neg h2, exec]
      rfl

/-- The sequencer's move: idle, it does nothing; otherwise it runs a row of its own. -/
theorem sequencerMove_next {s t : State} (h : sequencerMove s = .next t) :
    (s.txState = .idle ∧ t = s) ∨
    (s.txState = .transmitting ∧ ∃ i, isSequencerRow i = true ∧ exec i s = .next t) := by
  rw [sequencerMove] at h
  split at h
  · cases h; exact .inl ⟨‹_›, rfl⟩
  · refine .inr ⟨‹_›, ?_⟩
    rw [fetchCode] at h
    split at h
    · cases h
    · rename_i q hq
      split at hq
      · cases hq
      · cases hq
      · cases hq; exact ⟨_, decode_sequencerRow _ _ _, h⟩

/-- Everything a reset inside a hold can do: it is a reset of a state that differs by a drive, or by a FAULT_EXIT. -/
theorem resetInHold_next {s t : State} (h : resetInHold s = .next t) :
    ∃ u, t = resetCore u ∧ (u = s ∨ (∃ l, u = (drive l s).2) ∨ ∃ l, faultExit (drive l s).2 = .next u) := by
  rw [resetInHold] at h
  split at h
  · cases h; exact ⟨s, rfl, .inl rfl⟩
  · split at h
    · cases h
    · cases h
    · split at h
      · cases h; exact ⟨s, rfl, .inl rfl⟩
      · split at h
        · rename_i s' hs
          cases h
          exact ⟨s', rfl, .inr (.inl ⟨_, by rw [hs]⟩)⟩
        · rename_i s' hs
          split at h
          · rename_i u hu
            cases h
            exact ⟨u, rfl, .inr (.inr ⟨_, by rw [hs]; exact hu⟩)⟩
          · cases h
          · cases h

/-- Everything a step can do, by whose move it is. -/
theorem step_next {s t : State} (h : step s = .next t) :
    (s.events = [] ∧ sequencerMove s = .next t) ∨
    ∃ es, (s.events = .sequencer :: es ∧ sequencerMove { s with events := es } = .next t) ∨
      (∃ r cmd, s.events = .submit r cmd :: es ∧ r ∈ s.config.requesters ∧
        exec (decode s.config (.cmd cmd)) (present r cmd { s with events := es }) = .next t) ∨
      (s.events = .reset :: es ∧ t = resetCore { s with events := es }) ∨
      (s.events = .resetInHold :: es ∧ resetInHold { s with events := es } = .next t) := by
  rw [step, nextMove] at h
  split at h
  · exact .inl ⟨‹_›, h⟩
  · rename_i e es he
    refine .inr ⟨es, ?_⟩
    cases e with
    | submit r cmd =>
      rw [takeEvent, submit] at h
      split at h
      · rename_i hr; exact .inr (.inl ⟨r, cmd, he, by simpa using hr, h⟩)
      · cases h
    | sequencer => exact .inl ⟨he, h⟩
    | reset => rw [takeEvent] at h; cases h; exact .inr (.inr (.inl ⟨he, rfl⟩))
    | resetInHold => exact .inr (.inr (.inr ⟨he, h⟩))

end Sys2Proof.Machine
end

