-- ==== Sys2Proof/Tests/Slice0.lean ====
section
/-! SUPPORT. Tests on small states, with expected values from spec/95_test_vectors.md and the rules cited, and for every
statement with hypotheses a witness: a concrete state and operands that meet them. -/

namespace Sys2Proof.Tests

open Sys2Proof Sys2Proof.Machine

/-! ### The states of the tests -/

/-- The configuration of 95_test_vectors.md, with three requesters and some legal `OPEN` cells. -/
def testConfig : Config where
  kindPT2260 := 0x00
  kindPT2262 := 0x01
  pUs := 350
  repeatCount := 1
  busyPolicy := .reject
  requesters := [0, 1, 2]
  tolUs := 0
  rom := romImage ({} : LegalOpenCells).cells

def blockConfig : Config := { testConfig with busyPolicy := .block }

/-- Inputs of the platform: the changes of `GRANT` before each of the core's looks, and the drive results, both to come. -/
def inputs (grants : List (List Bool)) (draws : List DriveResult) : Platform :=
  { grant := true, grants := grants, grantCount := 0, draws := draws, drawCount := 1 }

/-- The start state of 95_test_vectors.md, with an unchanged grant and successful draws to come. -/
def start : State := { State.resetOf testConfig .ok with platform := inputs [[], [], []] [.ok, .ok, .ok] }

/-- The start state when the platform gives no grant from now on. -/
def ungranted : State := { start with platform := { inputs [[], []] [] with grant := false } }

/-- A transmission of requester 1's command 0x00000001 at the position `q`. -/
def running (q : SeqPos) : State :=
  { start with
    txState := .transmitting
    req := some ⟨0, 0, 0, 1⟩
    cw := some 0x6A6804
    seq := some q
    owner := some 1
    line := match q.phase with | .high => .low | .low => .high }

/-- The transmission that has just been accepted. -/
def first : State := running ⟨0, 0, 0, .high⟩

/-- The last half of the transmission is next. -/
def last : State := running ⟨0, 12, 0, .low⟩

/-- The same transmission under `Block`, with a command of requester 2 held. -/
def holding : State := { first with config := blockConfig, wait := [(2, 0x010F0300)], choices := [0] }

/-- What an operation answers satisfies `p`, and is a next state. -/
def nextIs (a : Answer) (p : State → Bool) : Bool :=
  match a with
  | .next t => p t
  | .fault _ => false
  | .refused _ => false

/-- A refusal of construction, by its check. -/
def refusedBy (a : Answer) : Option ConfigCheck :=
  match a with
  | .refused (.illFormedConfig k) => some k
  | _ => none

/-! ### Well-formedness: one ill-formed configuration for each check (70_reset_and_hazards.md R263)

`frag_len` cannot fail: a word of 8 bits holds exactly four symbols (log 18). -/

theorem test_config_wellFormed : testConfig.wf = true := by decide

/-- A cell of PT2260 group 1 that holds the reserved symbol. -/
theorem test_config_alphabet_refused :
    refusedBy (construct { testConfig with rom := romImage { ({} : LegalOpenCells).cells with g2260_1 := 0x03 } } .ok) =
      some .alphabet := by decide

/-- A cell is missing. -/
theorem test_config_sizes_refused :
    refusedBy (construct { testConfig with rom := testConfig.rom.dropLast } .ok) = some .sizes := by decide

/-- PT2260 group 0 is not "1FFF". -/
theorem test_config_knownCells_refused :
    refusedBy (construct { testConfig with rom := (0x00, 0x55) :: testConfig.rom.tail } .ok) = some .knownCells := by decide

/-- PT2260 group 1 repeats group 0. -/
theorem test_config_distinct_refused :
    refusedBy (construct { testConfig with rom := romImage { ({} : LegalOpenCells).cells with g2260_1 := 0x6A } } .ok) =
      some .distinct := by decide

theorem test_config_kindCodes_refused :
    refusedBy (construct { testConfig with kindPT2262 := 0x00 } .ok) = some .kindCodes ∧
    refusedBy (construct { testConfig with kindPT2262 := 0x63 } .ok) = some .kindCodes := by decide

theorem test_config_repeat_refused :
    refusedBy (construct { testConfig with repeatCount := 0 } .ok) = some .repeatRange ∧
    refusedBy (construct { testConfig with repeatCount := 256 } .ok) = some .repeatRange ∧
    ({ testConfig with repeatCount := 255 } : Config).wf = true := by decide

theorem test_config_pulseLen_refused :
    refusedBy (construct { testConfig with pUs := 0 } .ok) = some .pulseLen := by decide

theorem test_config_requesters_refused :
    refusedBy (construct { testConfig with requesters := [] } .ok) = some .requesters := by decide

/-- A `TX.UNKNOWN` with a kind code in its `KIND` byte is ill formed. -/
theorem test_instr_txUnknown_refused :
    (Instr.txUnknown 0x00 0 0 0).wf testConfig = false ∧ (Instr.txUnknown 0x01 0 0 0).wf testConfig = false := by decide

/-! ### Decoding: words written out from 30_encoding.md R71 and R74, and 95_test_vectors.md 2.1 and 2.2 -/

theorem test_decode_txPT2260 :
    decode testConfig (.cmd 0b00000000_00000000_00000000_00000001) = .txPT2260 0 0 1 ∧
    decodeTableWord 32 0b00000000_00000100_00000011_00000010 = some (.txPT2260 4 3 2) := by decide

theorem test_decode_txPT2262 :
    decode testConfig (.cmd 0b00000001_00001111_00000011_00000000) = .txPT2262 15 3 0 ∧
    decodeTableWord 32 0b00000001_00001111_00000011_00000000 = some (.txPT2262 15 3 0) := by decide

theorem test_decode_txUnknown :
    decode testConfig (.cmd 0b01100011_00000000_00000000_00000000) = .txUnknown 99 0 0 0 ∧
    decodeTableWord 32 0xFFFFFFFF = some (.txUnknown 255 255 255 255) := by decide

/-- With other kind codes the same words mean other rows (95_test_vectors.md 2.2). -/
theorem test_decode_other_kindCodes :
    let c := { testConfig with kindPT2260 := 0x10, kindPT2262 := 0x20 }
    decode c (.cmd 0x00000001) = .txUnknown 0 0 0 1 ∧ decode c (.cmd 0x10000001) = .txPT2260 0 0 1 ∧
    decode c (.cmd 0x20000001) = .txPT2262 0 0 1 := by decide

theorem test_decode_sym :
    decodeTableWord 8 0b00 = some .sym0 ∧ decodeTableWord 8 0b01 = some .sym1 ∧ decodeTableWord 8 0b10 = some .symF ∧
    decodeTableWord 8 0b11 = some .symRsv ∧ decodeTableWord 8 0b100 = none := by decide

theorem test_decode_sync : decodeTableWord 0 0 = some .sync := by decide

/-- A command is exactly 4 bytes (30_encoding.md R80). -/
theorem test_decode_partial_rejected :
    decodedInstr (decodeBytes testConfig [0x00, 0x00, 0x00]) = none ∧
    decodedInstr (decodeBytes testConfig [0x00, 0x00, 0x00, 0x01, 0x00]) = none := by decide

/-! ### Single steps -/

/-- 95_test_vectors.md P1: the command is accepted with `CW` = 0x6A6804. -/
theorem test_submit_accepted :
    nextIs (step { start with events := [.submit 1 0x00000001] })
      (fun t => t == { first with
        submitter := 1, subs := [(1, 0x00000001)], platform := inputs [[], []] [.ok, .ok, .ok] }) = true := by decide

/-- 95_test_vectors.md P2, command 3: `CW` = 0x00AAA8. -/
theorem test_submit_pt2262_accepted :
    nextIs (step { start with events := [.submit 2 0x010F0300] })
      (fun t => t.cw == some 0x00AAA8 && t.owner == some 2 && t.busy == 1) = true := by decide

/-- 95_test_vectors.md 2.8: a bad command gets its validation error whatever the core does and without the grant. -/
theorem test_submit_unknownEncoder :
    nextIs (step { ungranted with events := [.submit 0 0x63000000] })
      (fun t => t.resp == [(0, .unknownEncoder)] && t.txState == .idle) = true ∧
    nextIs (step { first with events := [.submit 0 0x63000000] }) (fun t => t.resp == [(0, .unknownEncoder)]) = true := by
  decide

theorem test_submit_outOfRange :
    nextIs (step { start with events := [.submit 0 0x00040000] }) (fun t => t.resp == [(0, .outOfRange)]) = true ∧
    nextIs (step { first with events := [.submit 0 0x01000400] }) (fun t => t.resp == [(0, .outOfRange)]) = true := by decide

/-- 95_test_vectors.md 2.8: no grant; busy under `Reject`. -/
theorem test_submit_resourceUnavailable :
    nextIs (step { ungranted with events := [.submit 0 0x00000001] })
      (fun t => t.resp == [(0, .resourceUnavailable)] && t.txState == .idle) = true ∧
    nextIs (step { first with events := [.submit 2 0x010F0300] })
      (fun t => t.resp == [(2, .resourceUnavailable)] && t.seq == first.seq && t.wait == []) = true := by decide

/-- 95_test_vectors.md 2.8 and P3 (b): busy under `Block`. -/
theorem test_submit_held :
    nextIs (step { first with config := blockConfig, events := [.submit 2 0x010F0300] })
      (fun t => t.resp == [] && t.wait == [(2, 0x010F0300)] && t.owner == some 1) = true := by decide

/-- 95_test_vectors.md 2.5: the first half of `1` is H3; the second half of the second pair is L1. -/
theorem test_sym1_halves :
    nextIs (exec .sym1 first) (fun t => t.trace == [⟨.high, 1050⟩] && t.seq == some ⟨0, 0, 0, .low⟩ && t.line == .high) = true ∧
    nextIs (exec .sym1 (running ⟨0, 0, 1, .low⟩))
      (fun t => t.trace == [⟨.low, 350⟩] && t.seq == some ⟨0, 1, 0, .high⟩ && t.line == .low) = true := by decide

theorem test_sym0_halves :
    nextIs (exec .sym0 (running ⟨0, 7, 1, .high⟩)) (fun t => t.trace == [⟨.high, 350⟩]) = true ∧
    nextIs (exec .sym0 (running ⟨0, 7, 0, .low⟩)) (fun t => t.trace == [⟨.low, 1050⟩] && t.seq == some ⟨0, 7, 1, .high⟩) = true := by
  decide

theorem test_symF_halves :
    nextIs (exec .symF (running ⟨0, 1, 0, .high⟩)) (fun t => t.trace == [⟨.high, 350⟩]) = true ∧
    nextIs (exec .symF (running ⟨0, 1, 1, .high⟩)) (fun t => t.trace == [⟨.high, 1050⟩]) = true := by decide

/-- 95_test_vectors.md 2.5: the reserved code gives nothing. -/
theorem test_symRsv_nothing :
    nextIs (exec .symRsv (running ⟨0, 11, 0, .high⟩)) (fun t => t.trace == [] && t.seq == some ⟨0, 12, 0, .high⟩) = true := by
  decide

/-- 95_test_vectors.md P1 and P3 (b): after L31 the owner is answered `Ok`; a held command is accepted at once. -/
theorem test_sync_finish :
    nextIs (step last)
      (fun t => t.trace == [⟨.low, 10850⟩] && t.resp == [(1, .ok)] && t.line == .low && t.busy == 0 && t.seq == none) = true ∧
    nextIs (step { last with config := blockConfig, wait := [(2, 0x010F0300)], choices := [0] })
      (fun t => t.resp == [(1, .ok)] && t.owner == some 2 && t.cw == some 0x00AAA8 && t.wait == [] &&
        t.seq == some ⟨0, 0, 0, .high⟩) = true := by decide

theorem test_sync_next_repetition :
    nextIs (exec .sync { last with config := { testConfig with repeatCount := 4 } })
      (fun t => t.seq == some ⟨1, 0, 0, .high⟩ && t.resp == [] && t.busy == 1) = true := by decide

/-- 95_test_vectors.md 2.9: the third drive fails; the force-low succeeds, or fails. -/
theorem test_failed_drive_exits :
    nextIs (step { running ⟨0, 0, 1, .high⟩ with platform := inputs [[], []] [.fail, .ok] })
      (fun t => t.resp == [(1, .hardwareFault)] && t.line == .low && t.txState == .idle && t.trace == []) = true ∧
    nextIs (step { running ⟨0, 0, 1, .high⟩ with platform := inputs [[], []] [.fail, .fail] })
      (fun t => t.resp == [(1, .hardwareFault)] && t.line == .unknown && t.txState == .idle) = true := by decide

/-- 95_test_vectors.md 2.9: reset inside the hold of the seventh half. -/
theorem test_reset_in_hold :
    nextIs (step { running ⟨0, 1, 1, .high⟩ with events := [.resetInHold] })
      (fun t => t.trace == [] && t.resp == [] && t.line == .low && t.txState == .idle && t.seq == none) = true := by decide

/-- 70_reset_and_hazards.md R260: what is held is dropped without a response; a failed drive leaves the line unknown. -/
theorem test_reset :
    nextIs (step { holding with platform := inputs [[]] [.fail], events := [.reset] })
      (fun t => t.wait == [] && t.resp == [] && t.line == .unknown && t.txState == .idle) = true := by decide

/-- 70_reset_and_hazards.md R265: the drive after a withdrawal fails, be the grant given back before it. -/
theorem test_grant_withdrawn :
    nextIs (step { first with platform := inputs [[false], []] [.ok] })
      (fun t => t.resp == [(1, .hardwareFault)] && t.platform.grant == false && t.trace == []) = true ∧
    nextIs (step { first with platform := inputs [[false, true], []] [.ok] })
      (fun t => t.resp == [(1, .hardwareFault)] && t.platform.grant == true && t.trace == []) = true := by decide

/-- The last half of a transmission is next, with two commands held, and the grant goes away in its hold. -/
def lostAtLast : State :=
  { last with
    config := blockConfig
    wait := [(0, 0x00000001), (2, 0x010F0300)]
    choices := [1, 0]
    platform := inputs [[], [false], []] [.ok] }

/-- 44_transmitter.md R186, R188, and log 7: the owner is answered `Ok` and what is held `ResourceUnavailable`. -/
theorem test_grant_lost_in_last_hold :
    nextIs (step lostAtLast) (fun t => t.txState == .idle && t.wait == [] &&
      t.resp == [(1, .ok), (2, .resourceUnavailable), (0, .resourceUnavailable)]) = true := by decide

/-- 10_state.md R37: a read of `SEQ` in `Idle` is a fault. -/
theorem test_valueless_register_faults : (match exec .sym0 start with | .fault (.valueless .seq) => true | _ => false) = true := by
  decide

/-- Each row, placed after reset, runs as the next step. -/
theorem test_placed_rows_run :
    nextIs (step (State.reset.withFetchWord 32 0x00000001)) (fun t => t.cw == some 0x6A6804) = true ∧
    nextIs (step (State.reset.withFetchWord 32 0x010F0300)) (fun t => t.cw == some 0x00AAA8) = true ∧
    nextIs (step (State.reset.withFetchWord 32 0x63000000)) (fun t => t.resp == [(0, .unknownEncoder)]) = true ∧
    nextIs (step (State.reset.withFetchWord 8 0b00)) (fun t => t.trace == [⟨.high, 350⟩]) = true ∧
    nextIs (step (State.reset.withFetchWord 8 0b01)) (fun t => t.trace == [⟨.high, 1050⟩]) = true ∧
    nextIs (step (State.reset.withFetchWord 8 0b10)) (fun t => t.trace == [⟨.high, 350⟩]) = true ∧
    nextIs (step (State.reset.withFetchWord 8 0b11)) (fun t => t.trace == [] && t.seq == some ⟨0, 1, 0, .high⟩) = true ∧
    nextIs (step (State.reset.withFetchWord 0 0))
      (fun t => t.trace == [⟨.high, 350⟩] && t.seq == some ⟨0, 12, 0, .low⟩) = true := by decide

/-! ### Witnesses: states that satisfy the invariant -/

theorem witness_inv_idle : CoreInv start where
  configWf := by decide
  registers := by decide
  seqRange := by intro q h; cases h
  codeword := by intro q cw h _; cases h
  ownerKnown := by intro r h; cases h
  waitIsSet := by decide
  waitValid := by decide
  waitIdle := by decide
  waitReject := by decide
  granted := by decide
  lineIdle := by decide
  linePhase := by intro q h; cases h

/-- The invariant does not read the schedule. -/
theorem inv_schedule {s : State} (es : List Event) (h : CoreInv s) : CoreInv { s with events := es } :=
  ⟨h.configWf, h.registers, h.seqRange, h.codeword, h.ownerKnown, h.waitIsSet, h.waitValid, h.waitIdle, h.waitReject,
    h.granted, h.lineIdle, h.linePhase⟩

/-- It reads `GRANT` alone of the platform's inputs. -/
theorem inv_inputs {s : State} (grants : List (List Bool)) (draws : List DriveResult) (h : CoreInv s) :
    CoreInv { s with platform := inputs grants draws } :=
  ⟨h.configWf, h.registers, h.seqRange, h.codeword, h.ownerKnown, h.waitIsSet, h.waitValid, h.waitIdle, h.waitReject,
    fun _ => rfl, h.lineIdle, h.linePhase⟩

theorem witness_inv_first : CoreInv first where
  configWf := by decide
  registers := by decide
  seqRange := by intro q h; cases h; decide
  codeword := by intro q cw hq hcw; cases hq; cases hcw; exact ⟨.pt2260, by decide⟩
  ownerKnown := by intro r h; cases h; decide
  waitIsSet := by decide
  waitValid := by decide
  waitIdle := by decide
  waitReject := by decide
  granted := by decide
  lineIdle := by decide
  linePhase := by intro q h; cases h; decide

/-- A transmission with a held command. -/
theorem witness_inv_holding : CoreInv holding where
  configWf := by decide
  registers := by decide
  seqRange := by intro q h; cases h; decide
  codeword := by intro q cw hq hcw; cases hq; cases hcw; exact ⟨.pt2260, by decide⟩
  ownerKnown := by intro r h; cases h; decide
  waitIsSet := by decide
  waitValid := by decide
  waitIdle := by decide
  waitReject := by decide
  granted := by decide
  lineIdle := by decide
  linePhase := by intro q h; cases h; decide

/-! ### Witnesses for the statements -/

theorem witness_DecodeOfEncode :
    testConfig.kindPT2260 ≠ testConfig.kindPT2262 ∧ (Instr.txPT2260 255 0 1).wf testConfig = true ∧
    (Instr.txPT2262 15 3 0).wf testConfig = true ∧ (Instr.txUnknown 0x02 0 0 0).wf testConfig = true ∧
    (Instr.txUnknown 0xFF 255 255 255).wf testConfig = true ∧ Instr.sync.wf testConfig = true := by decide

theorem witness_SpecWordsDecode : testConfig.kindPT2260 = 0x00 ∧ testConfig.kindPT2262 = 0x01 := by decide

theorem witness_StepRunsSubmittedCommand :
    let s : State := { start with events := [.submit 2 0x00000001, .reset] }
    s.events = .submit 2 0x00000001 :: [.reset] ∧ 2 ∈ s.config.requesters := by decide

theorem witness_StepRunsSequencerInstruction :
    (first.txState = .transmitting ∧ first.seq = some ⟨0, 0, 0, .high⟩ ∧ first.cw = some 0x6A6804 ∧ first.events = []) ∧
    (let s : State := { last with events := [.sequencer] }
     s.txState = .transmitting ∧ s.seq = some ⟨0, 12, 0, .low⟩ ∧ s.cw = some 0x6A6804 ∧ s.events = .sequencer :: []) := by
  decide

theorem witness_IdleCoreWaits : start.txState = .idle ∧ start.events = [] := by decide

theorem witness_SubmitOutsideRequestersRefused :
    let s : State := { start with events := [.submit 3 0x00000001] }
    s.events = .submit 3 0x00000001 :: [] ∧ 3 ∉ s.config.requesters := by decide

theorem witness_KindSelectsByEquality :
    testConfig.wf = true ∧ start.config = testConfig ∧ cmdKind 0x02000000 ≠ testConfig.kindPT2260 ∧
    cmdKind 0x02000000 ≠ testConfig.kindPT2262 := by decide

/-- The four cases, and a history that already holds a `HardwareFault`. -/
theorem witness_ErrorPriority :
    lookup start.config (cmdKind 0x63000000) = none ∧
    (lookup start.config (cmdKind 0x00040000) = some .pt2260 ∧
      validate .pt2260 (cmdGroup 0x00040000) (cmdSocket 0x00040000) (cmdData 0x00040000) = false) ∧
    (lookup start.config (cmdKind 0x010F0301) = some .pt2262 ∧
      validate .pt2262 (cmdGroup 0x010F0301) (cmdSocket 0x010F0301) (cmdData 0x010F0301) = true) ∧
    (first.txState = .transmitting ∧ first.config.busyPolicy = .reject) ∧
    (ungranted.txState = .idle ∧ (sampleGrant ungranted).1 = false) ∧
    nextIs (exec (decode testConfig (.cmd 0x63000000)) { start with resp := [(1, .hardwareFault)] })
      (fun t => t.resp.contains (1, .hardwareFault)) = true :=
  ⟨by decide, by decide, by decide, by decide, by decide, by decide⟩

/-- The greatest accepted indices of each kind. -/
theorem witness_ValidCommandAccepted :
    start.config.wf = true ∧ start.txState = .idle ∧ (sampleGrant start).1 = true ∧
    ((3 : Byte).toNat < 4 ∧ (2 : Byte).toNat < 3 ∧ (1 : Byte).toNat < 2) ∧
    ((15 : Byte).toNat < 16 ∧ (3 : Byte).toNat < 4 ∧ (1 : Byte).toNat < 2) := by decide

theorem witness_BusyCommandHeldUnderBlock :
    commandValid holding.config 0x010F0300 = true ∧ holding.txState = .transmitting ∧ holding.config.busyPolicy = .block := by
  decide

theorem witness_HeldCommandResumes :
    holding.config.wf = true ∧ (∀ e ∈ holding.wait, commandValid holding.config e.2 = true) ∧ waitSorted holding.wait = true ∧
    (holding.wait ≠ [] ∧ holding.choices = 0 :: [] ∧ 0 < holding.wait.length) ∧ (sampleGrant holding).1 = true ∧
    (let s : State := { holding with platform := { inputs [[]] [] with grant := false } }
     (sampleGrant s).1 = false ∧ s.platform.grant = false ∧
       s.platform.grants = List.replicate s.wait.length [] ++ []) := by decide

theorem witness_RomAddressing : testConfig.wf = true ∧ (testConfig.rom.read 0x4F).isSome = true := by decide

theorem witness_CodewordConcatenatesFragments : testConfig.wf = true ∧ validate .pt2262 15 3 1 = true := by decide

theorem witness_KnownCodewords : testConfig.wf = true := test_config_wellFormed

theorem witness_CodewordsDistinct :
    testConfig.wf = true ∧ validate .pt2260 3 2 1 = true ∧
    build testConfig.rom .pt2260 3 2 1 = build testConfig.rom .pt2260 3 2 1 := by decide

theorem witness_CodewordHasNoReservedSymbol : testConfig.wf = true ∧ build testConfig.rom .pt2260 0 0 1 = some 0x6A6804 := by
  decide

theorem witness_RomNeverWritten : nextIs (step first) (fun _ => true) = true := by decide

theorem witness_DriveSetsLine :
    (drive .high start).1 = .ok ∧ (drive .low { start with platform := inputs [[]] [.fail] }).1 = .fail := by decide

theorem witness_HighHalfCompletes :
    (∀ x ∈ [Instr.sym0, .sym1, .symF], ∀ pair ∈ [0, 1], ((instrPairs x)[pair]?).isSome = true) ∧
    (instrPairs .sync)[0]? = some ⟨1, 31⟩ ∧ first.seq = some ⟨0, 0, 0, .high⟩ ∧
    (running ⟨0, 0, 1, .high⟩).seq = some ⟨0, 0, 1, .high⟩ ∧ (running ⟨0, 12, 0, .high⟩).seq = some ⟨0, 12, 0, .high⟩ ∧
    (draw first).1 = .ok ∧ (draw (running ⟨0, 0, 1, .high⟩)).1 = .ok ∧ (draw (running ⟨0, 12, 0, .high⟩)).1 = .ok := by decide

theorem witness_LowHalfOfSymbolCompletes :
    (∀ x ∈ [Instr.sym0, .sym1, .symF], ∀ pair ∈ [0, 1], ((instrPairs x)[pair]?).isSome = true) ∧
    (running ⟨0, 11, 0, .low⟩).seq = some ⟨0, 11, 0, .low⟩ ∧ (running ⟨0, 11, 1, .low⟩).seq = some ⟨0, 11, 1, .low⟩ ∧
    11 < 12 ∧ (draw (running ⟨0, 11, 0, .low⟩)).1 = .ok ∧ (draw (running ⟨0, 11, 1, .low⟩)).1 = .ok := by decide

theorem witness_SymbolWaveforms :
    let s : State := { running ⟨0, 11, 0, .high⟩ with platform := inputs [[], [], [], []] [.ok, .ok, .ok, .ok] }
    11 < 12 ∧ s.seq = some ⟨0, 11, 0, .high⟩ ∧ drawsOk 4 s = true := by decide

theorem witness_ReservedSymbolSkipped : (running ⟨0, 11, 0, .high⟩).seq = some ⟨0, 11, 0, .high⟩ ∧ 11 < 12 := by decide

theorem witness_SyncWaveform :
    let s : State := running ⟨0, 12, 0, .high⟩
    (s.seq = some ⟨0, 12, 0, .high⟩ ∧ drawsOk 2 s = true) ∧
    0 + 1 < ({ s with config := { testConfig with repeatCount := 4 } } : State).config.repeatCount ∧
    (s.config.repeatCount ≤ 0 + 1 ∧ s.owner = some 1 ∧ s.wait = []) := by decide

theorem witness_FinishAnswersOk :
    last.seq = some ⟨0, 12, 0, .low⟩ ∧ last.config.repeatCount ≤ 0 + 1 ∧ last.owner = some 1 ∧ (draw last).1 = .ok ∧
    last.wait = [] := by decide

theorem witness_FailedDriveExits :
    let s : State := { first with platform := inputs [[], []] [.fail, .ok] }
    s.seq = some ⟨0, 0, 0, .high⟩ ∧ (0 < (instrPairs .sym0).length ∧ 0 < (instrPairs .sym1).length ∧
      0 < (instrPairs .symF).length ∧ 0 < (instrPairs .sync).length) ∧ s.owner = some 1 ∧ (draw s).1 = .fail ∧ s.wait = [] ∧
    (draw { first with resp := [(2, .hardwareFault)] }).1 = .ok ∧
    nextIs (exec .sym1 { first with resp := [(2, .hardwareFault)] }) (fun t => t.resp.contains (2, .hardwareFault)) = true := by
  decide

/-- A duty kept; a grant taken away and given back; a grant that stays away while a command is held. -/
theorem witness_WithdrawnGrantEndsTransmission :
    platformDutyKept first = true ∧
    (let s : State := { first with platform := inputs [[false, true], []] [.ok] }
     s.txState = .transmitting ∧ withdrawn s.platform.grant s.platform.changes = true) ∧
    (let s : State := { holding with platform := inputs [[false], [], []] [.ok], events := [.sequencer] }
     CoreInv s ∧ s.txState = .transmitting ∧ s.owner = some 1 ∧ s.events = .sequencer :: [] ∧
       withdrawn true s.platform.changes = true ∧
       s.platform.grants = [false] :: (List.replicate (s.wait.length + 1) [] ++ []) ∧ [false].getLastD true = false) :=
  ⟨by decide, by decide, inv_schedule [.sequencer] (inv_inputs [[false], [], []] [.ok] witness_inv_holding), by decide⟩

theorem witness_GrantLostInLastHold :
    lostAtLast.seq = some ⟨0, 12, 0, .low⟩ ∧ lostAtLast.config.repeatCount ≤ 0 + 1 ∧ lostAtLast.owner = some 1 ∧
    lostAtLast.platform.grant = true ∧ lostAtLast.wait ≠ [] ∧
    lostAtLast.platform.grants = [] :: [false] :: (List.replicate (lostAtLast.wait.length - 1) [] ++ []) ∧
    (draw lostAtLast).1 = .ok := by decide

theorem witness_ResetRule : ({ holding with events := [.reset] } : State).events = .reset :: [] := by decide

theorem witness_ResetInHoldAborts :
    let s : State := { holding with events := [.resetInHold] }
    CoreInv s ∧ s.txState = .transmitting ∧ s.events = .resetInHold :: [] ∧ (draw s).1 = .ok :=
  ⟨inv_schedule _ witness_inv_holding, by decide⟩

theorem witness_ConstructionChecksConfiguration :
    (∀ k ∈ ConfigCheck.all, testConfig.passes k = true) ∧ ({ testConfig with pUs := 0 } : Config).passes .pulseLen = false := by
  decide

theorem witness_InvariantAtReset : testConfig.wf = true := test_config_wellFormed

/-- An idle state, a running one, and one with a held command, each with a next state. -/
theorem witness_StepKeepsInvariant :
    (CoreInv start ∧ nextIs (step start) (fun _ => true) = true) ∧
    (CoreInv { first with events := [] } ∧ nextIs (step { first with events := [] }) (fun _ => true) = true) ∧
    (CoreInv { holding with events := [.reset] } ∧ nextIs (step { holding with events := [.reset] }) (fun _ => true) = true) :=
  ⟨⟨witness_inv_idle, by decide⟩, ⟨inv_schedule _ witness_inv_first, by decide⟩, ⟨inv_schedule _ witness_inv_holding, by decide⟩⟩

theorem witness_CoreNeverStops : CoreInv start ∧ CoreInv { first with events := [.submit 3 0x00000001] } :=
  ⟨witness_inv_idle, inv_schedule _ witness_inv_first⟩

/-- An acceptance, an end, and a reset. -/
theorem witness_TxStateTransitions :
    nextIs (step { start with events := [.submit 1 0x00000001] }) (fun t => t.txState == .transmitting) = true ∧
    nextIs (step last) (fun t => t.txState == .idle) = true ∧
    nextIs (step { first with events := [.reset] }) (fun t => t.txState == .idle) = true := by decide

/-- A rejected and a held command. -/
theorem witness_SubmitNeverTouchesTransmission :
    nextIs (step { first with events := [.submit 2 0x010F0300] }) (fun t => t.resp == [(2, .resourceUnavailable)]) = true ∧
    nextIs (step { holding with events := [.submit 0 0x00000001] }) (fun t => t.wait.length == 2) = true := by decide

theorem witness_HistoriesOnlyGrow : nextIs (step first) (fun t => t.trace.length == 1) = true := by decide

theorem witness_EverySubmitAccountedFor :
    let s : State := { holding with events := [.submit 0 0x00000001] }
    CoreInv s ∧ nextIs (step s) (fun t => submitted t 0 == 1 && outstanding t 0 == 1) = true ∧ resetNext s = false ∧
    s.events = .submit 0 0x00000001 :: [] ∧ ((0 : Requester), (0x00000001 : Command)) ∉ s.wait :=
  ⟨inv_schedule _ witness_inv_holding, by decide⟩

theorem witness_OneOutstandingPerRequester :
    let s : State := { first with events := [.submit 2 0x010F0300] }
    CoreInv s ∧ requesterDutyKept s = true ∧ (∀ r, outstanding s r ≤ 1) ∧ nextIs (step s) (fun _ => true) = true :=
  ⟨inv_schedule _ witness_inv_first, by decide, fun r => by
    show (if some 1 = some r then 1 else 0) + 0 ≤ 1
    split <;> decide, by decide⟩

theorem witness_CommandFrame :
    nextIs (exec (.txPT2260 0 0 1) start) (fun _ => true) = true ∧ nextIs (exec (.txPT2262 15 3 0) holding) (fun _ => true) = true ∧
    nextIs (exec (.txUnknown 99 0 0 0) first) (fun _ => true) = true := by decide

theorem witness_SequencerFrame :
    (∀ i ∈ [Instr.sym0, .sym1, .symF, .symRsv], nextIs (exec i first) (fun _ => true) = true) ∧
    nextIs (exec .sync last) (fun _ => true) = true := by decide

theorem witness_StepsRefineTransmit :
    CoreInv { first with events := [] } ∧ first.txState = .transmitting ∧ first.seq = some ⟨0, 0, 0, .high⟩ ∧ first.events = [] :=
  ⟨inv_schedule _ witness_inv_first, by decide⟩

theorem witness_FaultFreeTransmissionWaveform :
    let s : State := { first with platform := inputs (List.replicate 50 []) (List.replicate 50 .ok) }
    s.config.wf = true ∧ s.txState = .transmitting ∧ s.seq = some ⟨0, 0, 0, .high⟩ ∧ s.cw = some 0x6A6804 ∧
    validSymbols 0x6A6804 0 12 = 12 ∧ s.owner = some 1 ∧ s.events = [] ∧ s.wait = [] ∧
    drawsOk (s.config.repeatCount * (4 * 12 + 2)) s = true := by decide

/-- A drive, an end, and a submit meanwhile. -/
theorem witness_TransmissionEnds :
    (CoreInv { first with events := [.sequencer] } ∧
      nextIs (step { first with events := [.sequencer] }) (fun t => drivesLeft t == 49 && t.resp == []) = true) ∧
    nextIs (step last) (fun t => t.resp == [(1, .ok)]) = true ∧
    nextIs (step { first with events := [.submit 2 0x010F0300] }) (fun t => drivesLeft t == 50) = true :=
  ⟨⟨inv_schedule _ witness_inv_first, by decide⟩, by decide, by decide⟩

theorem witness_IdleCoreIsQuiescent :
    CoreInv start ∧ start.txState = .idle ∧ (∀ r, submitted start r = answered start r + outstanding start r) ∧
    start.events = [] :=
  ⟨witness_inv_idle, by decide, fun _ => rfl, by decide⟩

theorem witness_SegmentsAlternate : 1 ≤ 1 := by decide

end Sys2Proof.Tests
end

section
/-! What the rows and operations of a running transmission find: the symbols of a codeword, the code at `SEQ`, and the
state after a drive. -/

namespace Sys2Proof.Machine

/-! ### The symbols of a codeword -/

/-- The symbols of a codeword are those of its three fragments, group first (41_codeword.md R120). -/
theorem cwSymbol_append (fg fs fd : Byte) {j : Nat} (hj : j < 4) :
    cwSymbol (fg ++ fs ++ fd) j = fragSymbol fg j ∧ cwSymbol (fg ++ fs ++ fd) (j + 4) = fragSymbol fs j ∧
      cwSymbol (fg ++ fs ++ fd) (j + 8) = fragSymbol fd j := by
  refine ⟨?_, ?_, ?_⟩ <;> ext i hi <;>
    simp only [cwSymbol, fragSymbol, BitVec.getElem_extractLsb', BitVec.getLsbD_append]
  · rw [if_neg (by omega), if_neg (by omega)]; congr 1; omega
  · rw [if_neg (by omega), if_pos (by omega)]; congr 1; omega
  · rw [if_pos (by omega)]; congr 1; omega

/-- No fragment of a well-formed configuration has the reserved symbol (20_memory.md R52). -/
theorem fragSymbol_ne_reserved {c : Config} (h : c.wf = true) {k : Kind} {t : Table} {i f : Byte}
    (hf : romRead c.rom k t i = some f) {j : Nat} (hj : j < 4) : fragSymbol f j ≠ 3#2 := by
  have halpha : alphabetOk c.rom = true := passes_of_wf h .alphabet
  have hmem : ∃ a, (a, f) ∈ c.rom := by
    rw [romRead] at hf
    split at hf
    · exact ⟨_, mem_of_read hf⟩
    · cases hf
  obtain ⟨a, ha⟩ := hmem
  have hsym : fragSymbol f j ∈ fragSymbols f := by
    interval_cases j <;> simp [fragSymbols]
  simpa using List.all_eq_true.mp (List.all_eq_true.mp halpha _ ha) _ hsym

/-- No codeword that BUILD gives has the reserved symbol. -/
theorem cwSymbol_ne_reserved {c : Config} (h : c.wf = true) {k : Kind} {g s d : Byte} {cw : Codeword}
    (hb : build c.rom k g s d = some cw) {j : Nat} (hj : j < cwLen) : cwSymbol cw j ≠ 3#2 := by
  rw [build] at hb
  split at hb
  · rename_i fg fs fd hg hs hd
    cases hb
    have hj : j < 12 := hj
    by_cases h4 : j < 4
    · rw [(cwSymbol_append fg fs fd h4).1]
      exact fragSymbol_ne_reserved h hg h4
    · by_cases h8 : j < 8
      · obtain ⟨i, rfl⟩ : ∃ i, j = i + 4 := ⟨j - 4, by omega⟩
        rw [(cwSymbol_append fg fs fd (by omega)).2.1]
        exact fragSymbol_ne_reserved h hs (by omega)
      · obtain ⟨i, rfl⟩ : ∃ i, j = i + 8 := ⟨j - 8, by omega⟩
        rw [(cwSymbol_append fg fs fd (by omega)).2.2]
        exact fragSymbol_ne_reserved h hd (by omega)
  · cases hb

/-! ### The code at `SEQ` -/

/-- The code at a position: a symbol of the codeword, or the sync slot (44_transmitter.md R180). -/
def codeAt (cw : Codeword) (q : SeqPos) : Code := if q.pos < cwLen then .sym (cwSymbol cw q.pos) else .syncSlot

theorem fetchCode_eq {s : State} {q : SeqPos} {cw : Codeword} (hq : s.seq = some q) (hcw : s.cw = some cw) :
    fetchCode s = .ok (codeAt cw q) := by
  simp only [fetchCode, hq, hcw, codeAt]

/-- The row at a position plays the pairs of its code. -/
theorem exec_codeAt (c : Config) (cw : Codeword) (q : SeqPos) (s : State) :
    exec (decode c (codeAt cw q)) s = playPairs (codePairs (codeAt cw q)) s := by
  have symbol : ∀ x : SymCode, instrPairs (decodeSymbol x) = symbolPairs x := by decide
  have pairs : instrPairs (decode c (codeAt cw q)) = codePairs (codeAt cw q) := by
    rw [codeAt]
    split
    · exact symbol _
    · rfl
  exact (exec_sequencerRow (decode_sequencerRow c cw q) s).trans (congrArg (playPairs · s) pairs)

/-- A symbol has two pairs, the sync slot one. -/
theorem codePairs_codeAt_length {cw : Codeword} {q : SeqPos} (h : q.pos < cwLen → cwSymbol cw q.pos ≠ 3#2) :
    (codePairs (codeAt cw q)).length = if q.pos < cwLen then 2 else 1 := by
  have symbol : ∀ x : SymCode, x ≠ 3#2 → (symbolPairs x).length = 2 := by decide
  rw [codeAt]
  split
  · exact symbol _ (h ‹_›)
  · rfl

theorem seqInRange_iff {n : Nat} {q : SeqPos} :
    seqInRange n q = true ↔ q.rep < n ∧ q.pos ≤ cwLen ∧ q.pair ≤ 1 ∧ (q.pos < cwLen ∨ q.pair = 0) := by
  simp only [seqInRange, Bool.and_eq_true, Bool.or_eq_true, decide_eq_true_eq, and_assoc]

/-! ### Validity of a command, and the line after a drive -/

theorem commandValid_iff {c : Config} {cmd : Command} :
    commandValid c cmd = true ↔
      ∃ k, lookup c (cmdKind cmd) = some k ∧ validate k (cmdGroup cmd) (cmdSocket cmd) (cmdData cmd) = true := by
  rw [commandValid]
  split <;> simp [*]

/-- A drive changes the line and the platform's inputs alone. -/
theorem drive_state (l : Level) (s : State) :
    (drive l s).2 = { s with line := lineAfter l (draw s).1, platform := (draw s).2.platform } := by
  rw [drive, draw_state]

theorem lineAfter_low_ne_high (x : DriveResult) : lineAfter .low x ≠ .high := by cases x <;> decide

end Sys2Proof.Machine
end

section
/-! The invariant of the core, operation by operation: from a state that satisfies it an operation answers a next state
that satisfies it. That a core never stops and that its steps keep the invariant are then one walk over the machine. -/

namespace Sys2Proof.Machine

/-! ### What the invariant says in each `TX_STATE` -/

/-- While `Idle` no register holds a value (10_state.md R37). -/
theorem CoreInv.idle_registers {s : State} (h : CoreInv s) (ht : s.txState = .idle) :
    s.req = none ∧ s.cw = none ∧ s.seq = none ∧ s.owner = none := by
  simpa [registersMatch, ht, and_assoc] using h.registers

/-- While `Transmitting` every register holds a value (10_state.md R37). -/
theorem CoreInv.transmitting_registers {s : State} (h : CoreInv s) (ht : s.txState = .transmitting) :
    ∃ req cw q r, s.req = some req ∧ s.cw = some cw ∧ s.seq = some q ∧ s.owner = some r := by
  have hr := h.registers
  simp only [registersMatch, ht, Bool.and_eq_true, Option.isSome_iff_exists] at hr
  obtain ⟨⟨⟨⟨req, hreq⟩, cw, hcw⟩, q, hq⟩, r, ho⟩ := hr
  exact ⟨req, cw, q, r, hreq, hcw, hq, ho⟩

/-- The invariant reads neither the histories, nor the command input, nor the schedule, nor the choices to come. -/
theorem CoreInv.untouched {s : State} (h : CoreInv s) (trace : List Segment) (resp : List (Requester × Result))
    (submitter : Requester) (subs : List (Requester × Command)) (events : List Event) (choices : List Nat) (n : Nat) :
    CoreInv { s with
      trace := trace, resp := resp, submitter := submitter, subs := subs, events := events, choices := choices,
      choiceCount := n } :=
  ⟨h.configWf, h.registers, h.seqRange, h.codeword, h.ownerKnown, h.waitIsSet, h.waitValid, h.waitIdle, h.waitReject,
    h.granted, h.lineIdle, h.linePhase⟩

theorem CoreInv.respond {s : State} (h : CoreInv s) (r : Requester) (x : Result) : CoreInv (respond r x s) :=
  h.untouched ..

/-- A transmission stays within the invariant when it goes on at a position in range, with the grant in place and the line
as the position says. -/
theorem CoreInv.advance {s : State} (h : CoreInv s) (ht : s.txState = .transmitting) {p : Platform} (hp : p.grant = true)
    (l : Line) (q : SeqPos) (hq : seqInRange s.config.repeatCount q = true) (hl : l = .high ↔ q.phase = .low)
    (trace : List Segment) :
    CoreInv { s with line := l, seq := some q, platform := p, trace := trace } where
  configWf := h.configWf
  registers := by
    obtain ⟨req, cw, _, r, hreq, hcw, _, ho⟩ := h.transmitting_registers ht
    simp [registersMatch, ht, hreq, hcw, ho]
  seqRange := by rintro _ ⟨⟩; exact hq
  codeword := h.codeword
  ownerKnown := h.ownerKnown
  waitIsSet := h.waitIsSet
  waitValid := h.waitValid
  waitIdle := h.waitIdle
  waitReject := h.waitReject
  granted := fun _ => hp
  lineIdle := fun hi => absurd (ht.symm.trans hi) (by decide)
  linePhase := by rintro _ ⟨⟩; exact hl

/-! ### Between two transmissions -/

/-- A core between the end of one transmission and the acceptance of the next: `Idle`, with commands that may still be held,
as RESUME_WAITING finds them (44_transmitter.md R188). -/
structure Released (s : State) : Prop where
  configWf : s.config.wf = true
  txState : s.txState = .idle
  registers : s.req = none ∧ s.cw = none ∧ s.seq = none ∧ s.owner = none
  waitIsSet : waitSorted s.wait = true
  waitValid : ∀ e ∈ s.wait, e.1 ∈ s.config.requesters ∧ commandValid s.config e.2 = true
  waitReject : s.config.busyPolicy = .reject → s.wait = []
  line : s.line ≠ .high

/-- With nothing held the invariant holds of a released core. -/
theorem Released.coreInv {s : State} (h : Released s) (hw : s.wait = []) : CoreInv s := by
  obtain ⟨hreq, hcw, hseq, ho⟩ := h.registers
  constructor
  case configWf => exact h.configWf
  case registers => simp [registersMatch, h.txState, hreq, hcw, hseq, ho]
  case seqRange => simp [hseq]
  case codeword => simp [hreq]
  case ownerKnown => simp [ho]
  case waitIsSet => exact h.waitIsSet
  case waitValid => exact h.waitValid
  case waitIdle => exact fun _ => hw
  case waitReject => exact h.waitReject
  case granted => simp [h.txState]
  case lineIdle => exact fun _ => h.line
  case linePhase => simp [hseq]

/-- An idle core is a released one, whatever the platform's inputs are. -/
theorem CoreInv.released {s : State} (h : CoreInv s) (ht : s.txState = .idle) (p : Platform) :
    Released { s with platform := p } :=
  ⟨h.configWf, ht, h.idle_registers ht, h.waitIsSet, h.waitValid, h.waitReject, h.lineIdle ht⟩

/-- The end of a transmission leaves a released core, if it leaves the line not high. -/
theorem CoreInv.end_released {s u : State} (h : CoreInv s) (hc : u.config = s.config) (hw : u.wait = s.wait)
    (hl : u.line ≠ .high) (r : Requester) (x : Result) : Released (Machine.respond r x (release u)) where
  configWf := by simpa [hc] using h.configWf
  txState := rfl
  registers := ⟨rfl, rfl, rfl, rfl⟩
  waitIsSet := by simpa [hw] using h.waitIsSet
  waitValid := by simpa [hc, hw] using h.waitValid
  waitReject := by simpa [hc, hw] using h.waitReject
  line := hl

/-- One command fewer held, and one more answered. -/
theorem Released.eraseIdx {s : State} (h : Released s) (i : Nat) (choices : List Nat) (n : Nat) (p : Platform)
    (resp : List (Requester × Result)) :
    Released { s with wait := s.wait.eraseIdx i, choices := choices, choiceCount := n, platform := p, resp := resp } where
  configWf := h.configWf
  txState := h.txState
  registers := h.registers
  waitIsSet := waitSorted_eraseIdx h.waitIsSet
  waitValid := fun e he => h.waitValid e (List.eraseIdx_subset he)
  waitReject := fun hp => by simp [h.waitReject hp]
  line := h.line

/-- Acceptance of a valid command under the grant establishes the invariant (40_registry_validate.md R105). -/
theorem Released.accepted {s : State} (h : Released s) {r : Requester} {k : Kind} {cmd : Command} {cw : Codeword}
    (hr : r ∈ s.config.requesters) (hk : lookup s.config (cmdKind cmd) = some k)
    (hv : validate k (cmdGroup cmd) (cmdSocket cmd) (cmdData cmd) = true)
    (hb : build s.config.rom k (cmdGroup cmd) (cmdSocket cmd) (cmdData cmd) = some cw)
    (hg : s.platform.grant = true) : CoreInv (accepted r cmd cw s) where
  configWf := h.configWf
  registers := rfl
  seqRange := by
    rintro _ ⟨⟩
    have hrep := passes_of_wf h.configWf .repeatRange
    simp only [Config.passes, Bool.and_eq_true, decide_eq_true_eq] at hrep
    exact seqInRange_iff.mpr ⟨hrep.1, by decide, by decide, by decide⟩
  codeword := by rintro _ _ ⟨⟩ ⟨⟩; exact ⟨k, hk, hv, hb⟩
  ownerKnown := by rintro _ ⟨⟩; exact hr
  waitIsSet := h.waitIsSet
  waitValid := h.waitValid
  waitIdle := nofun
  waitReject := h.waitReject
  granted := fun _ => hg
  lineIdle := nofun
  linePhase := by rintro _ ⟨⟩; exact iff_of_false h.line nofun

/-! ### Operations that answer a state of the invariant -/

/-- The operation answers a next state, and that state satisfies the invariant. -/
def Continues (a : Answer) : Prop := ∃ t, a = .next t ∧ CoreInv t

theorem CoreInv.continues {t : State} (h : CoreInv t) : Continues (.next t) := ⟨t, rfl, h⟩

theorem accept_continues {s : State} (h : Released s) {r : Requester} {k : Kind} {cmd : Command}
    (hr : r ∈ s.config.requesters) (hk : lookup s.config (cmdKind cmd) = some k)
    (hv : validate k (cmdGroup cmd) (cmdSocket cmd) (cmdData cmd) = true) (hg : s.platform.grant = true) :
    Continues (accept r k cmd s) := by
  obtain ⟨cw, hb⟩ := build_isSome h.configWf hv
  exact ⟨_, accept_next.mpr ⟨cw, hb, rfl⟩, h.accepted hr hk hv hb hg⟩

/-- RESUME_WAITING: each round takes a valid command out of `WAIT` (44_transmitter.md R188). -/
theorem resumeWaiting_continues {s : State} (h : Released s) : Continues (resumeWaiting s) := by
  generalize hn : s.wait.length = n
  induction n generalizing s with
  | zero =>
    have hw := List.length_eq_zero_iff.mp hn
    rw [resumeWaiting_empty hw]
    exact CoreInv.continues (h.coreInv hw)
  | succ n ih =>
    have hw : s.wait ≠ [] := by intro hw; simp [hw] at hn
    obtain ⟨i, e, cs, c, hi, _, hyes, hno⟩ := resumeWaiting_round hw
    obtain ⟨hlt, he⟩ := List.getElem?_eq_some_iff.mp hi
    obtain ⟨hr, hvalid⟩ := h.waitValid e (he ▸ List.getElem_mem hlt)
    obtain ⟨k, hk, hv⟩ := commandValid_iff.mp hvalid
    cases hg : (sampleGrant s).1 with
    | true =>
      rw [hyes hg, hk]
      exact accept_continues (h.eraseIdx i cs c s.platform.look s.resp) hr hk hv hg
    | false =>
      rw [hno hg]
      exact ih (h.eraseIdx i cs c s.platform.look _) (by simp [List.length_eraseIdx_of_lt hlt, hn])

/-- FINISH of a transmission whose last half left the line low. -/
theorem finish_continues {s u : State} (h : CoreInv s) (ht : s.txState = .transmitting) (ho : u.owner = s.owner)
    (hc : u.config = s.config) (hw : u.wait = s.wait) (hl : u.line ≠ .high) : Continues (finish u) := by
  obtain ⟨_, _, _, r, _, _, _, hr⟩ := h.transmitting_registers ht
  simp only [finish, ho.trans hr]
  exact resumeWaiting_continues (h.end_released hc hw hl r .ok)

/-- FAULT_EXIT after the drive of a half. -/
theorem faultExit_drive_continues {s : State} (h : CoreInv s) (ht : s.txState = .transmitting) (l : Level) :
    Continues (faultExit (drive l s).2) := by
  obtain ⟨_, _, _, r, _, _, _, hr⟩ := h.transmitting_registers ht
  simp only [faultExit, (drive_owner l s).trans hr]
  exact resumeWaiting_continues
    (h.end_released (by simp) (by simp) (by simpa using lineAfter_low_ne_high _) r .hardwareFault)

/-! ### The sequencer's rows -/

/-- A half whose drive fails takes FAULT_EXIT (60_exceptions.md R224). -/
theorem playHalf_of_fail {s : State} (hd : (draw s).1 = .fail) (p : Pair) (last : Bool) (q : SeqPos) :
    playHalf p last q s = faultExit (drive q.phase s).2 := by
  have hdrive : drive q.phase s = (.fail, (drive q.phase s).2) := Prod.ext hd rfl
  rw [playHalf, hdrive]

/-- A half whose drive succeeds appends its segment and goes on. -/
theorem playHalf_of_ok {s : State} (hd : (draw s).1 = .ok) (p : Pair) (last : Bool) (q : SeqPos) :
    playHalf p last q s = nextHalf last q (emit q.phase (halfUs s.config.pUs p q.phase) (drive q.phase s).2) := by
  have hdrive : drive q.phase s = (.ok, (drive q.phase s).2) := Prod.ext hd rfl
  rw [playHalf, hdrive]

/-- The step past a position, after the last low half of it. -/
theorem nextPosition_continues {s : State} (h : CoreInv s) (ht : s.txState = .transmitting) {q : SeqPos}
    (hq : s.seq = some q) {p : Platform} (hp : p.grant = true) (trace : List Segment) :
    Continues (nextPosition q { s with line := .low, platform := p, trace := trace }) := by
  obtain ⟨hrep, hpos, -, -⟩ := seqInRange_iff.mp (h.seqRange q hq)
  rw [nextPosition]
  split
  · rename_i hlt
    exact CoreInv.continues (h.advance ht hp .low ⟨q.rep, q.pos + 1, 0, .high⟩
      (seqInRange_iff.mpr ⟨hrep, hlt, Nat.zero_le _, .inr rfl⟩) (by simp) trace)
  · split
    · rename_i hlast
      exact CoreInv.continues (h.advance ht hp .low ⟨q.rep + 1, 0, 0, .high⟩
        (seqInRange_iff.mpr ⟨hlast, Nat.zero_le _, Nat.zero_le _, .inr rfl⟩) (by simp) trace)
    · exact finish_continues h ht rfl rfl rfl (by simp)

/-- One half of a pair. `last` is told rightly: a pair that is not the last one of its position is the first one of a
symbol. -/
theorem playHalf_continues {s : State} (h : CoreInv s) (ht : s.txState = .transmitting) {q : SeqPos} (hq : s.seq = some q)
    {last : Bool} (hlast : last = false → q.pos < cwLen ∧ q.pair = 0) (p : Pair) : Continues (playHalf p last q s) := by
  obtain ⟨hrep, hpos, hpair, hend⟩ := seqInRange_iff.mp (h.seqRange q hq)
  cases hd : (draw s).1 with
  | fail =>
    rw [playHalf_of_fail hd]
    exact faultExit_drive_continues h ht q.phase
  | ok =>
    have hg : (draw s).2.platform.grant = true := draw_ok_granted ht (h.granted ht) hd
    rw [playHalf_of_ok hd, drive_state, hd]
    simp only [nextHalf]
    cases hphase : q.phase with
    | high =>
      exact CoreInv.continues (h.advance ht hg .high ⟨q.rep, q.pos, q.pair, .low⟩
        (seqInRange_iff.mpr ⟨hrep, hpos, hpair, hend⟩) (by simp) _)
    | low =>
      cases last with
      | true => exact nextPosition_continues h ht hq hg _
      | false =>
        obtain ⟨hsym, hzero⟩ := hlast rfl
        exact CoreInv.continues (h.advance ht hg .low ⟨q.rep, q.pos, q.pair + 1, .high⟩
          (seqInRange_iff.mpr ⟨hrep, hpos, by simp [hzero], .inl hsym⟩) (by simp) _)

/-- The pair at `SEQ` exists, since the codeword has no reserved symbol, and it is the last one of its position unless it is
the first one of a symbol. -/
theorem CoreInv.pair_at_seq {s : State} (h : CoreInv s) (ht : s.txState = .transmitting) :
    ∃ cw q p, s.cw = some cw ∧ s.seq = some q ∧ (codePairs (codeAt cw q))[q.pair]? = some p ∧
      (¬ (codePairs (codeAt cw q)).length ≤ q.pair + 1 → q.pos < cwLen ∧ q.pair = 0) := by
  obtain ⟨req, cw, q, _, hreq, hcw, hq, _⟩ := h.transmitting_registers ht
  obtain ⟨k, _, _, hb⟩ := h.codeword req cw hreq hcw
  obtain ⟨-, -, hpair, hend⟩ := seqInRange_iff.mp (h.seqRange q hq)
  have hlen := codePairs_codeAt_length (q := q) (cwSymbol_ne_reserved h.configWf hb)
  have hlt : q.pair < (codePairs (codeAt cw q)).length := by rw [hlen]; split <;> omega
  refine ⟨cw, q, _, hcw, hq, List.getElem?_eq_getElem hlt, fun hlast => ?_⟩
  rw [hlen] at hlast
  split at hlast <;> omega

theorem sequencerMove_continues {s : State} (h : CoreInv s) : Continues (sequencerMove s) := by
  rw [sequencerMove]
  cases ht : s.txState with
  | idle => exact h.continues
  | transmitting =>
    obtain ⟨cw, q, p, hcw, hq, hp, hlast⟩ := h.pair_at_seq ht
    simp only [fetchCode_eq hq hcw, exec_codeAt, playPairs, hq, hp]
    exact playHalf_continues h ht hq (by simpa using hlast) p

/-! ### Resets -/

/-- A reset establishes the invariant under any well-formed configuration (70_reset_and_hazards.md R260). -/
theorem resetCore_inv {s : State} (h : s.config.wf = true) : CoreInv (resetCore s) :=
  Released.coreInv
    ⟨by simpa [resetCore] using h, rfl, ⟨rfl, rfl, rfl, rfl⟩, rfl, nofun, fun _ => rfl, lineAfter_low_ne_high _⟩ rfl

theorem resetInHold_continues {s : State} (h : CoreInv s) : Continues (resetInHold s) := by
  rw [resetInHold]
  cases ht : s.txState with
  | idle => exact CoreInv.continues (resetCore_inv h.configWf)
  | transmitting =>
    obtain ⟨cw, q, p, hcw, hq, hp, _⟩ := h.pair_at_seq ht
    simp only [fetchCode_eq hq hcw, hq, hp]
    rw [← Prod.mk.eta (p := drive q.phase s)]
    cases (drive q.phase s).1 with
    | ok => exact CoreInv.continues (resetCore_inv (by simpa using h.configWf))
    | fail =>
      obtain ⟨u, hu, hinv⟩ := faultExit_drive_continues h ht q.phase
      simp only [hu]
      exact CoreInv.continues (resetCore_inv hinv.configWf)

/-! ### Submits -/

/-- A valid command that is held (44_transmitter.md R188). -/
theorem CoreInv.hold {s : State} (h : CoreInv s) (ht : s.txState = .transmitting) (hp : s.config.busyPolicy = .block)
    {e : Requester × Command} (hr : e.1 ∈ s.config.requesters) (hv : commandValid s.config e.2 = true) :
    CoreInv { s with wait := waitInsert e s.wait } where
  configWf := h.configWf
  registers := h.registers
  seqRange := h.seqRange
  codeword := h.codeword
  ownerKnown := h.ownerKnown
  waitIsSet := waitSorted_insert h.waitIsSet
  waitValid := fun x hx => by
    rcases mem_waitInsert.mp hx with rfl | hx
    · exact ⟨hr, hv⟩
    · exact h.waitValid x hx
  waitIdle := fun hi => absurd (ht.symm.trans hi) (by decide)
  waitReject := fun hj => absurd (hp.symm.trans hj) (by decide)
  granted := h.granted
  lineIdle := h.lineIdle
  linePhase := h.linePhase

theorem submitProfile_continues {s : State} (h : CoreInv s) {k : Kind} {cmd : Command}
    (hk : lookup s.config (cmdKind cmd) = some k) (hr : s.submitter ∈ s.config.requesters) :
    Continues (submitProfile k cmd s) := by
  rw [submitProfile]
  split
  · rename_i hv
    split
    · rename_i ht
      split
      · exact CoreInv.continues (h.respond ..)
      · exact CoreInv.continues (h.hold (e := (s.submitter, cmd)) ht ‹_› hr (commandValid_iff.mpr ⟨k, hk, hv⟩))
    · rename_i ht
      have hs : Released (sampleGrant s).2 := h.released ht s.platform.look
      split
      · exact accept_continues hs hr hk hv ‹_›
      · exact CoreInv.continues ((hs.coreInv (h.waitIdle ht)).respond ..)
  · exact CoreInv.continues (h.respond ..)

theorem submit_continues {s : State} (h : CoreInv s) {r : Requester} (hr : r ∈ s.config.requesters) (cmd : Command) :
    Continues (submit r cmd s) := by
  have hinv : CoreInv (present r cmd s) := h.untouched ..
  rw [submit, if_pos (by simpa using hr), exec_command s.config cmd (present r cmd s) rfl]
  cases hk : lookup s.config (cmdKind cmd) with
  | some k => exact submitProfile_continues hinv hk hr
  | none => exact CoreInv.continues (hinv.respond ..)

/-! ### Steps -/

/-- A step from a state of the invariant answers another one, unless it is a submit by an identity outside `REQUESTERS`. -/
theorem step_continues {s : State} (h : CoreInv s) :
    Continues (step s) ∨
    ∃ r cmd es, s.events = .submit r cmd :: es ∧ r ∉ s.config.requesters ∧ step s = .refused (.notARequester r) := by
  rw [step, nextMove]
  cases he : s.events with
  | nil => exact .inl (sequencerMove_continues h)
  | cons e es =>
    have hs : CoreInv { s with events := es } := h.untouched ..
    cases e with
    | submit r cmd =>
      by_cases hr : r ∈ s.config.requesters
      · exact .inl (submit_continues hs hr cmd)
      · exact .inr ⟨r, cmd, es, rfl, hr, if_neg (by simpa using hr)⟩
    | sequencer => exact .inl (sequencerMove_continues hs)
    | reset => exact .inl (CoreInv.continues (resetCore_inv hs.configWf))
    | resetInHold => exact .inl (resetInHold_continues hs)

/-- Settles O40. The refusal is no next state, so the step is one that continues. -/
theorem stepKeepsInvariant : Obligations.StepKeepsInvariant := by
  intro s t h ht
  rcases step_continues h with ⟨u, hu, hinv⟩ | ⟨_, _, _, _, _, hrefused⟩
  · cases hu.symm.trans ht
    exact hinv
  · cases hrefused.symm.trans ht

/-- Settles O41: a step that continues answers a next state. -/
theorem coreNeverStops : Obligations.CoreNeverStops := by
  intro s h
  exact (step_continues h).imp_left fun ⟨t, ht, _⟩ => ⟨t, ht⟩

end Sys2Proof.Machine
end

section
/-! The state after reset. -/

namespace Sys2Proof.Machine

/-- The state after reset is a released core with nothing held. -/
theorem resetOf_inv {c : Config} (h : c.wf = true) (res : DriveResult) : CoreInv (State.resetOf c res) :=
  Released.coreInv ⟨h, rfl, ⟨rfl, rfl, rfl, rfl⟩, rfl, nofun, fun _ => rfl, lineAfter_low_ne_high res⟩ rfl

/-- Settles O39; the configuration of `State.reset` is well formed. -/
theorem invariantAtReset : Obligations.InvariantAtReset :=
  ⟨fun _ res h => resetOf_inv h res, resetOf_inv forReset_wf _⟩

/-- Settles O35: every field but the line is the same after a successful and after a failed reset drive. -/
theorem resetValues : Obligations.ResetValues := by
  refine ⟨⟨Config.forReset, Config.freeDraw 0, rfl⟩, fun c res => ?_⟩
  have line : (State.resetOf c res).line = match res with | .ok => .low | .fail => .unknown := by cases res <;> rfl
  exact ⟨rfl, line, rfl, rfl, rfl, rfl, rfl, rfl, rfl, rfl, rfl⟩

end Sys2Proof.Machine
end

section
/-! The histories of a step: `TRACE`, `RESP` and the submits. -/

namespace Sys2Proof.Machine

/-- Responses may be appended; the trace and the submits stay. -/
structure RespGrows (s t : State) : Prop where
  trace : t.trace = s.trace
  subs : t.subs = s.subs
  resp : s.resp <+: t.resp

/-- The histories grow as a step may grow them: at most one segment and one submit are appended. -/
structure HistoriesGrow (s t : State) : Prop where
  trace : ∃ xs, t.trace = s.trace ++ xs ∧ xs.length ≤ 1
  subs : ∃ zs, t.subs = s.subs ++ zs ∧ zs.length ≤ 1
  resp : s.resp <+: t.resp

theorem RespGrows.historiesGrow {s t : State} (h : RespGrows s t) : HistoriesGrow s t :=
  ⟨⟨[], by simp [h.trace], by simp⟩, ⟨[], by simp [h.subs], by simp⟩, h.resp⟩

theorem RespGrows.trans {s u t : State} (h : RespGrows s u) (h' : RespGrows u t) : RespGrows s t :=
  ⟨h'.trace.trans h.trace, h'.subs.trans h.subs, h.resp.trans h'.resp⟩

/-- Growing histories grow further by responses. -/
theorem HistoriesGrow.trans {s u t : State} (h : HistoriesGrow s u) (h' : RespGrows u t) : HistoriesGrow s t :=
  ⟨h'.trace ▸ h.trace, h'.subs ▸ h.subs, h.resp.trans h'.resp⟩

/-- What is left of the schedule is no history. -/
theorem HistoriesGrow.of_schedule {s t : State} {es : List Event} (h : HistoriesGrow { s with events := es } t) :
    HistoriesGrow s t :=
  ⟨h.trace, h.subs, h.resp⟩

theorem respond_respGrows (r : Requester) (x : Result) (s : State) : RespGrows s (respond r x s) :=
  ⟨rfl, rfl, List.prefix_append ..⟩

theorem accept_respGrows {r : Requester} {k : Kind} {cmd : Command} {s t : State} (h : accept r k cmd s = .next t) :
    RespGrows s t := by
  obtain ⟨cw, _, rfl⟩ := accept_next.mp h
  exact ⟨rfl, rfl, List.prefix_rfl⟩

theorem resumeWaiting_respGrows {s t : State} (h : resumeWaiting s = .next t) : RespGrows s t := by
  rcases resumeWaiting_next h with ⟨_, _, _, _, _, rfl⟩ | ⟨_, _, _, _, _, _, _, _, _, _, _, _, _, rfl⟩ <;>
    exact ⟨rfl, rfl, List.prefix_append ..⟩

theorem submitProfile_respGrows {k : Kind} {cmd : Command} {s t : State} (h : submitProfile k cmd s = .next t) :
    RespGrows s t := by
  rcases submitProfile_next h with
    ⟨_, rfl⟩ | ⟨_, ⟨_, _, rfl⟩ | ⟨_, _, rfl⟩ | ⟨_, _, rfl⟩ | ⟨_, _, ha⟩⟩
  · exact respond_respGrows ..
  · exact respond_respGrows ..
  · exact ⟨rfl, rfl, List.prefix_rfl⟩
  · exact ⟨rfl, rfl, List.prefix_append ..⟩
  · have sampled : RespGrows s (sampleGrant s).2 := ⟨rfl, rfl, List.prefix_rfl⟩
    exact sampled.trans (accept_respGrows ha)

theorem exec_command_respGrows {cmd : Command} {s t : State} (h : exec (decode s.config (.cmd cmd)) s = .next t) :
    RespGrows s t := by
  rw [exec_command s.config cmd s rfl] at h
  split at h
  · exact submitProfile_respGrows h
  · cases h; exact respond_respGrows ..

theorem sequencerMove_historiesGrow {s t : State} (h : sequencerMove s = .next t) : HistoriesGrow s t := by
  rcases sequencerMove_next h with ⟨_, rfl⟩ | ⟨_, i, hi, hx⟩
  · exact RespGrows.historiesGrow ⟨rfl, rfl, List.prefix_rfl⟩
  · rcases exec_sequencerRow_next hi hx with hgo | ⟨u, r, x, hend, hresume⟩
    · exact ⟨hgo.trace, ⟨[], by simp [hgo.subs], by simp⟩, by rw [hgo.resp]⟩
    · have hu : HistoriesGrow s u := ⟨hend.trace, ⟨[], by simp [hend.subs], by simp⟩, by simp [hend.resp]⟩
      exact hu.trans (resumeWaiting_respGrows hresume)

theorem resetCore_respGrows (s : State) : RespGrows s (resetCore s) := by
  constructor <;> simp [resetCore]

/-- A reset inside a hold appends no segment; where the half's drive fails, FAULT_EXIT answers before it. -/
theorem resetInHold_respGrows {s t : State} (h : resetInHold s = .next t) : RespGrows s t := by
  obtain ⟨u, rfl, hu⟩ := resetInHold_next h
  have hsu : RespGrows s u := by
    rcases hu with rfl | ⟨l, rfl⟩ | ⟨l, hf⟩
    · exact ⟨rfl, rfl, List.prefix_rfl⟩
    · constructor <;> simp
    · obtain ⟨r, _, hresume⟩ := faultExit_next hf
      have ended : RespGrows s (respond r .hardwareFault (release (drive .low (drive l s).2).2)) := by
        constructor <;> simp
      exact ended.trans (resumeWaiting_respGrows hresume)
  exact hsu.trans (resetCore_respGrows u)

theorem step_historiesGrow {s t : State} (h : step s = .next t) : HistoriesGrow s t := by
  rcases step_next h with ⟨_, hm⟩ | ⟨es, ⟨_, hm⟩ | ⟨r, cmd, _, _, hx⟩ | ⟨_, rfl⟩ | ⟨_, hr⟩⟩
  · exact sequencerMove_historiesGrow hm
  · exact (sequencerMove_historiesGrow hm).of_schedule
  · have presented : HistoriesGrow s (present r cmd { s with events := es }) :=
      ⟨⟨[], by simp, by simp⟩, ⟨[(r, cmd)], rfl, by simp⟩, List.prefix_rfl⟩
    exact presented.trans (exec_command_respGrows hx)
  · exact (resetCore_respGrows _).historiesGrow.of_schedule
  · exact (resetInHold_respGrows hr).historiesGrow.of_schedule

/-- Settles O44, with the responses appended written out. -/
theorem historiesOnlyGrow : Obligations.HistoriesOnlyGrow := by
  intro s t h
  obtain ⟨⟨xs, hxs, hlen⟩, ⟨zs, hzs, hone⟩, ys, hys⟩ := step_historiesGrow h
  exact ⟨xs, ys, zs, hxs, hlen, hys.symm, hzs, hone⟩

end Sys2Proof.Machine
end

section
/-! The outstanding commands of a requester, operation by operation. -/

namespace Sys2Proof.Machine

/-- A command accepted or held is one more outstanding. -/
theorem outstanding_accepted {s : State} (ho : s.owner = none) (r r' : Requester) (cmd : Command) (cw : Codeword) :
    outstanding (accepted r cmd cw s) r' = outstanding s r' + if r = r' then 1 else 0 := by
  simp [outstanding, accepted, ho, Nat.add_comm]

theorem outstanding_hold {s : State} {e : Requester × Command} (he : e ∉ s.wait) (r : Requester) :
    outstanding { s with wait := waitInsert e s.wait } r = outstanding s r + if e.1 = r then 1 else 0 := by
  simp [outstanding, countP_waitInsert _ he, Nat.add_assoc]

/-- A held command is outstanding. -/
theorem outstanding_pos {s : State} {e : Requester × Command} (he : e ∈ s.wait) : 0 < outstanding s e.1 :=
  Nat.add_pos_right _ (List.countP_pos_iff.mpr ⟨e, he, by simp⟩)

/-- RESUME_WAITING answers held commands and accepts at most one of them, so that none is added. -/
theorem resumeWaiting_outstanding_le {s t : State} (ho : s.owner = none) (h : resumeWaiting s = .next t) (r : Requester) :
    outstanding t r ≤ outstanding s r := by
  rcases resumeWaiting_next h with ⟨_, _, _, _, _, rfl⟩ | ⟨_, w, e, _, _, _, _, _, hperm, _, _, _, _, rfl⟩
  · simp [outstanding, ho]
  · have hcount := hperm.countP_eq fun x => x.1 == r
    rw [List.countP_cons, List.countP_append] at hcount
    rw [outstanding_accepted]
    · simp only [outstanding, ho, reduceCtorEq, if_false, ← hcount, beq_iff_eq]
      omega
    · exact ho

/-- After a reset nothing is outstanding (70_reset_and_hazards.md R260). -/
@[simp] theorem outstanding_resetCore (s : State) (r : Requester) : outstanding (resetCore s) r = 0 := by
  simp [outstanding, resetCore]

theorem sequencerMove_outstanding_le {s t : State} (h : sequencerMove s = .next t) (r : Requester) :
    outstanding t r ≤ outstanding s r := by
  rcases sequencerMove_next h with ⟨_, rfl⟩ | ⟨_, i, hi, hx⟩
  · exact le_rfl
  · rcases exec_sequencerRow_next hi hx with hgo | ⟨u, _, _, hend, hresume⟩
    · simp [outstanding, hgo.owner, hgo.wait]
    · obtain ⟨-, -, -, ho⟩ := hend.registers
      calc outstanding t r ≤ outstanding u r := resumeWaiting_outstanding_le ho hresume r
        _ ≤ outstanding s r := by simp [outstanding, ho, hend.wait]

/-- A command adds at most itself to what its submitter has outstanding, if the same command is not held already. -/
theorem exec_command_outstanding_le {cmd : Command} {s t : State} (hi : CoreInv s) (hnew : (s.submitter, cmd) ∉ s.wait)
    (h : exec (decode s.config (.cmd cmd)) s = .next t) (r : Requester) :
    outstanding t r ≤ outstanding s r + if s.submitter = r then 1 else 0 := by
  rw [exec_command s.config cmd s rfl] at h
  split at h
  · rcases submitProfile_next h with
      ⟨_, rfl⟩ | ⟨_, ⟨_, _, rfl⟩ | ⟨_, _, rfl⟩ | ⟨_, _, rfl⟩ | ⟨ht, _, ha⟩⟩
    · exact Nat.le_add_right ..
    · exact Nat.le_add_right ..
    · exact (outstanding_hold hnew r).le
    · exact Nat.le_add_right ..
    · obtain ⟨cw, _, rfl⟩ := accept_next.mp ha
      obtain ⟨-, -, -, ho⟩ := hi.idle_registers ht
      exact (outstanding_accepted (s := (sampleGrant s).2) ho s.submitter r cmd cw).le
  · cases h; exact Nat.le_add_right ..

/-- Settles O46: a step adds at most the command of a submit, and by the duty its submitter has none outstanding. -/
theorem oneOutstandingPerRequester : Obligations.OneOutstandingPerRequester := by
  intro s t hi hduty hone h r
  rcases step_next h with ⟨_, hm⟩ | ⟨es, ⟨_, hm⟩ | ⟨r', cmd, he, _, hx⟩ | ⟨_, rfl⟩ | ⟨_, hr⟩⟩
  · exact (sequencerMove_outstanding_le hm r).trans (hone r)
  · exact (sequencerMove_outstanding_le hm r).trans (hone r)
  · have hfree : outstanding s r' = 0 := by simpa [requesterDutyKept, he] using hduty
    have hnew : (r', cmd) ∉ s.wait := fun hmem => (outstanding_pos hmem).ne' hfree
    have hpresent : CoreInv (present r' cmd { s with events := es }) := hi.untouched ..
    have hle : outstanding t r ≤ outstanding s r + if r' = r then 1 else 0 :=
      exec_command_outstanding_le hpresent hnew hx r
    split at hle
    · subst r'; omega
    · exact hle.trans (hone r)
  · simp
  · obtain ⟨u, rfl, _⟩ := resetInHold_next hr
    simp

end Sys2Proof.Machine
end

section
/-! The addresses of the profile ROM (20_memory.md R55). -/

namespace Sys2Proof.Machine

theorem tableLen_le (k : Kind) (t : Table) : tableLen k t ≤ 16 := by cases k <;> cases t <;> decide

/-- The offset of a table within the cells of its kind (20_memory.md R55). -/
def tableOffset : Table → Nat
  | .groups => 0
  | .sockets => 16
  | .dataCodes => 32

/-- The three fields of an address do not overlap, so that the address is their sum. -/
theorem romaddr_toNat (k : Kind) (t : Table) (i : BitVec 4) :
    (romaddr k t i).toNat = (if k = .pt2262 then 64 else 0) + tableOffset t + i.toNat := by
  have fields : (romaddr k t i).toNat = (kidx k ++ tableCode t).toNat * 16 + i.toNat := by
    rw [romaddr, BitVec.toNat_append, ← Nat.shiftLeft_add_eq_or_of_lt i.isLt, Nat.shiftLeft_eq]
  have offset : (kidx k ++ tableCode t).toNat * 16 = (if k = .pt2262 then 64 else 0) + tableOffset t := by
    cases k <;> cases t <;> rfl
  rw [fields, offset]

/-- An address of a table is the address of an index below the table's length. -/
theorem mem_tableAddresses {k : Kind} {t : Table} {a : Nat} (h : a ∈ tableAddresses k t) :
    ∃ i : BitVec 4, a = (romaddr k t i).toNat ∧ i.toNat < tableLen k t := by
  obtain ⟨n, hn, rfl⟩ := List.mem_map.mp h
  have hlt : n < tableLen k t := List.mem_range.mp hn
  have hfits : n < 2 ^ 4 := hlt.trans_le (tableLen_le k t)
  exact ⟨BitVec.ofNat 4 n, rfl, by rwa [BitVec.toNat_ofNat, Nat.mod_eq_of_lt hfits]⟩

/-- Every address that holds a fragment belongs to a table of a kind (20_memory.md R51). -/
theorem mem_romAddresses {a : Nat} (h : a ∈ romAddresses) : ∃ k t, a ∈ tableAddresses k t := by
  simp only [romAddresses, List.mem_append] at h
  rcases h with ((((h | h) | h) | h) | h) | h <;> exact ⟨_, _, h⟩

/-- Settles O18: a well-formed ROM lists the addresses of the tables and no other. -/
theorem romAddressing : Obligations.RomAddressing := by
  refine ⟨fun k t i => ?_, fun c hc => ⟨fun k t i => romRead_isSome hc k t i, fun a ha => ?_⟩⟩
  · rw [romaddr_toNat]
    cases t <;> rfl
  · rw [read_isSome_iff, rom_addresses hc] at ha
    obtain ⟨k, t, ht⟩ := mem_romAddresses ha
    obtain ⟨i, rfl, hi⟩ := mem_tableAddresses ht
    exact ⟨(romaddr k t i).isLt, k, t, i, rfl, hi⟩

/-- Settles O22: the symbols of a codeword are those of three fragments, and R52 keeps the reserved one out of those. -/
theorem codewordHasNoReservedSymbol : Obligations.CodewordHasNoReservedSymbol :=
  fun _ _ _ _ _ _ hc hb _ hj => cwSymbol_ne_reserved hc hb hj

end Sys2Proof.Machine
end

section
/-! No operation writes the configuration, and with it the profile ROM (20_memory.md R54). -/

namespace Sys2Proof.Machine

theorem accept_config {r : Requester} {k : Kind} {cmd : Command} {s t : State} (h : accept r k cmd s = .next t) :
    t.config = s.config := by
  obtain ⟨cw, _, rfl⟩ := accept_next.mp h
  rfl

theorem resumeWaiting_config {s t : State} (h : resumeWaiting s = .next t) : t.config = s.config := by
  rcases resumeWaiting_next h with ⟨_, _, _, _, _, rfl⟩ | ⟨_, _, _, _, _, _, _, _, _, _, _, _, _, rfl⟩ <;> rfl

theorem faultExit_config {s t : State} (h : faultExit s = .next t) : t.config = s.config := by
  obtain ⟨r, _, hresume⟩ := faultExit_next h
  simpa using resumeWaiting_config hresume

theorem submitProfile_config {k : Kind} {cmd : Command} {s t : State} (h : submitProfile k cmd s = .next t) :
    t.config = s.config := by
  rcases submitProfile_next h with
    ⟨_, rfl⟩ | ⟨_, ⟨_, _, rfl⟩ | ⟨_, _, rfl⟩ | ⟨_, _, rfl⟩ | ⟨_, _, ha⟩⟩
  · rfl
  · rfl
  · rfl
  · rfl
  · exact (accept_config ha).trans (sampleGrant_config s)

theorem exec_command_config {cmd : Command} {s t : State} (h : exec (decode s.config (.cmd cmd)) s = .next t) :
    t.config = s.config := by
  rw [exec_command s.config cmd s rfl] at h
  split at h
  · exact submitProfile_config h
  · cases h; rfl

theorem sequencerMove_config {s t : State} (h : sequencerMove s = .next t) : t.config = s.config := by
  rcases sequencerMove_next h with ⟨_, rfl⟩ | ⟨_, i, hi, hx⟩
  · rfl
  · rcases exec_sequencerRow_next hi hx with hgo | ⟨u, r, x, hend, hresume⟩
    · exact hgo.config
    · exact (resumeWaiting_config hresume).trans hend.config

@[simp] theorem resetCore_config (s : State) : (resetCore s).config = s.config := by simp [resetCore]

theorem resetInHold_config {s t : State} (h : resetInHold s = .next t) : t.config = s.config := by
  obtain ⟨u, rfl, rfl | ⟨l, rfl⟩ | ⟨l, hf⟩⟩ := resetInHold_next h
  · simp
  · simp
  · simpa using faultExit_config hf

/-- Whoever moves, a step keeps the configuration. -/
theorem step_config {s t : State} (h : step s = .next t) : t.config = s.config := by
  rcases step_next h with ⟨_, hm⟩ | ⟨es, ⟨_, hm⟩ | ⟨r, cmd, _, _, hx⟩ | ⟨_, rfl⟩ | ⟨_, hr⟩⟩
  · exact sequencerMove_config hm
  · exact (sequencerMove_config hm).trans rfl
  · exact exec_command_config (s := present r cmd { s with events := es }) hx
  · simp
  · exact (resetInHold_config hr).trans rfl

/-- Settles O23: the ROM is part of the configuration, which every step keeps. -/
theorem romNeverWritten : Obligations.RomNeverWritten :=
  fun _ _ h => ⟨step_config h, fun _ => by rw [step_config h]⟩

end Sys2Proof.Machine
end

section
/-! The encoding of commands and symbols (30_encoding.md): the fields of a packed command, LOOKUP by equality, and what the
code of each row decodes to. -/

namespace Sys2Proof.Machine

/-! ### The fields of a packed command -/

@[simp] theorem cmdData_packCommand (k g s d : Byte) : cmdData (packCommand k g s d) = d :=
  BitVec.extractLsb'_append_eq_right

@[simp] theorem cmdSocket_packCommand (k g s d : Byte) : cmdSocket (packCommand k g s d) = s := by
  rw [cmdSocket, packCommand, BitVec.extractLsb'_append_eq_of_le (by decide)]
  exact BitVec.extractLsb'_append_eq_right

@[simp] theorem cmdGroup_packCommand (k g s d : Byte) : cmdGroup (packCommand k g s d) = g := by
  rw [cmdGroup, packCommand, BitVec.extractLsb'_append_eq_of_le (by decide),
    BitVec.extractLsb'_append_eq_of_le (by decide)]
  exact BitVec.extractLsb'_append_eq_right

@[simp] theorem cmdKind_packCommand (k g s d : Byte) : cmdKind (packCommand k g s d) = k := by
  rw [cmdKind, packCommand, BitVec.extractLsb'_append_eq_of_le (by decide),
    BitVec.extractLsb'_append_eq_of_le (by decide)]
  exact BitVec.extractLsb'_append_eq_left

/-- A byte appended below a word moves the word up by eight bits. -/
theorem toNat_append_byte {n : Nat} (x : BitVec n) (b : Byte) : (x ++ b).toNat = x.toNat * 2 ^ 8 + b.toNat := by
  rw [BitVec.toNat_append, ← Nat.shiftLeft_add_eq_or_of_lt b.isLt, Nat.shiftLeft_eq]

/-- Settles O1: each byte stands eight bits above the one that arrives after it. -/
theorem commandBytesFirstMostSignificant : Obligations.CommandBytesFirstMostSignificant := by
  intro k g s d
  have value : (packCommand k g s d).toNat = k.toNat * 2 ^ 24 + g.toNat * 2 ^ 16 + s.toNat * 2 ^ 8 + d.toNat := by
    simp only [packCommand, toNat_append_byte]
    omega
  exact ⟨value, cmdKind_packCommand .., cmdGroup_packCommand .., cmdSocket_packCommand .., cmdData_packCommand ..⟩

/-! ### LOOKUP by equality -/

theorem lookup_eq_pt2260_iff {c : Config} {b : Byte} : lookup c b = some .pt2260 ↔ b = c.kindPT2260 := by
  rcases lookup_cases c b with ⟨h0, hl⟩ | ⟨h0, _, hl⟩ | ⟨h0, _, hl⟩
  · exact iff_of_true hl h0
  · rw [hl]; simp [h0]
  · rw [hl]; simp [h0]

/-- The kind code of PT2262 selects its profile unless it is the code of PT2260 too (30_encoding.md R73). -/
theorem lookup_eq_pt2262_iff {c : Config} (hne : c.kindPT2260 ≠ c.kindPT2262) {b : Byte} :
    lookup c b = some .pt2262 ↔ b = c.kindPT2262 := by
  rcases lookup_cases c b with ⟨h0, hl⟩ | ⟨_, h1, hl⟩ | ⟨_, h1, hl⟩
  · rw [hl]; simp [h0, hne]
  · exact iff_of_true hl h1
  · rw [hl]; simp [h1]

theorem lookup_eq_none_iff {c : Config} {b : Byte} : lookup c b = none ↔ b ≠ c.kindPT2260 ∧ b ≠ c.kindPT2262 := by
  rcases lookup_cases c b with ⟨h0, hl⟩ | ⟨_, h1, hl⟩ | ⟨h0, h1, hl⟩
  · rw [hl]; simp [h0]
  · rw [hl]; simp [h1]
  · exact iff_of_true hl ⟨h0, h1⟩

/-- The kind codes of a well-formed configuration differ, and neither is 99 (30_encoding.md R73). -/
theorem kindCodes_of_wf {c : Config} (h : c.wf = true) :
    c.kindPT2260 ≠ c.kindPT2262 ∧ c.kindPT2260 ≠ 99 ∧ c.kindPT2262 ≠ 99 := by
  simpa [Config.passes, and_assoc] using passes_of_wf h .kindCodes

/-- A command whose kind byte selects no profile is answered `UnknownEncoder` (40_registry_validate.md R100). -/
theorem exec_command_of_unknown {cmd : Command} {s : State} (h : lookup s.config (cmdKind cmd) = none) :
    exec (decode s.config (.cmd cmd)) s = .next (respond s.submitter .unknownEncoder s) := by
  rw [exec_command s.config cmd s rfl, h, raise]

/-- Settles O10: a kind byte that is neither code selects no profile, so that the command is answered as unknown. -/
theorem kindSelectsByEquality : Obligations.KindSelectsByEquality := by
  intro c hc
  obtain ⟨hne, h0, h1⟩ := kindCodes_of_wf hc
  refine ⟨hne, h0, h1, fun code => ⟨lookup_eq_pt2260_iff, lookup_eq_pt2262_iff hne⟩, ?_⟩
  rintro cmd s rfl hcmd0 hcmd1
  exact exec_command_of_unknown (lookup_eq_none_iff.mpr ⟨hcmd0, hcmd1⟩)

/-! ### The row of a command, by the profile that LOOKUP gives -/

theorem decode_of_lookup_pt2260 {c : Config} {w : Command} (h : lookup c (cmdKind w) = some .pt2260) :
    decode c (.cmd w) = .txPT2260 (cmdGroup w) (cmdSocket w) (cmdData w) := by
  rw [decode, decodeCommand, h]

theorem decode_of_lookup_pt2262 {c : Config} {w : Command} (h : lookup c (cmdKind w) = some .pt2262) :
    decode c (.cmd w) = .txPT2262 (cmdGroup w) (cmdSocket w) (cmdData w) := by
  rw [decode, decodeCommand, h]

theorem decode_of_lookup_none {c : Config} {w : Command} (h : lookup c (cmdKind w) = none) :
    decode c (.cmd w) = .txUnknown (cmdKind w) (cmdGroup w) (cmdSocket w) (cmdData w) := by
  rw [decode, decodeCommand, h]

/-! ### Decoding and encoding are inverse -/

theorem txUnknown_wf_iff {c : Config} {k g s d : Byte} :
    (Instr.txUnknown k g s d).wf c = true ↔ lookup c k = none := by
  simp [Instr.wf, lookup_eq_none_iff]

/-- Settles O2, row by row: the packed kind byte selects the row's own profile, and the fields read back the operands. -/
theorem decodeOfEncode : Obligations.DecodeOfEncode := by
  intro c i hne hwf
  cases i with
  | txPT2260 g s d =>
    have hl : lookup c (cmdKind (packCommand c.kindPT2260 g s d)) = some .pt2260 := by simp [lookup_eq_pt2260_iff]
    simp [encode, decode_of_lookup_pt2260 hl]
  | txPT2262 g s d =>
    have hl : lookup c (cmdKind (packCommand c.kindPT2262 g s d)) = some .pt2262 := by simp [lookup_eq_pt2262_iff hne]
    simp [encode, decode_of_lookup_pt2262 hl]
  | txUnknown k g s d =>
    have hl : lookup c (cmdKind (packCommand k g s d)) = none := by simpa [txUnknown_wf_iff] using hwf
    simp [encode, decode_of_lookup_none hl]
  | sym0 => rfl
  | sym1 => rfl
  | symF => rfl
  | symRsv => rfl
  | sync => rfl

/-- A command decodes to a well-formed instruction whose code is the command: the row's kind code is the kind byte that
selected it. -/
theorem encode_decode_command (c : Config) (w : Command) :
    encode c (decode c (.cmd w)) = .cmd w ∧ (decode c (.cmd w)).wf c = true := by
  rcases lookup_cases c (cmdKind w) with ⟨hk, hl⟩ | ⟨_, hk, hl⟩ | ⟨_, _, hl⟩
  · rw [decode_of_lookup_pt2260 hl, encode, ← hk, packCommand_fields]
    exact ⟨rfl, rfl⟩
  · rw [decode_of_lookup_pt2262 hl, encode, ← hk, packCommand_fields]
    exact ⟨rfl, rfl⟩
  · rw [decode_of_lookup_none hl, encode, packCommand_fields]
    exact ⟨rfl, txUnknown_wf_iff.mpr hl⟩

/-- The four symbol codes (30_encoding.md R74). -/
theorem symCode_cases : ∀ x : SymCode, x = 0b00#2 ∨ x = 0b01#2 ∨ x = 0b10#2 ∨ x = 0b11#2 := by decide

theorem encode_decode_symbol (c : Config) (x : SymCode) :
    encode c (decode c (.sym x)) = .sym x ∧ (decode c (.sym x)).wf c = true := by
  rcases symCode_cases x with rfl | rfl | rfl | rfl <;> exact ⟨rfl, rfl⟩

/-- Settles O3, format by format. -/
theorem encodeOfDecode : Obligations.EncodeOfDecode := by
  intro c code
  cases code with
  | cmd w => exact encode_decode_command c w
  | sym x => exact encode_decode_symbol c x
  | syncSlot => exact ⟨rfl, rfl⟩

/-! ### The spec's own words -/

/-- Settles O4: each word is the code of its instruction, from which it decodes. -/
theorem specWordsDecode : Obligations.SpecWordsDecode := by
  intro c h0 h1
  have decoded : ∀ {i : Instr} {code : Code}, i.wf c = true → encode c i = code → decode c code = i := by
    rintro i _ hi rfl
    exact decodeOfEncode c i (by rw [h0, h1]; decide) hi
  have bytes : ∀ {i : Instr} {k g s d : Byte}, i.wf c = true → encode c i = .cmd (packCommand k g s d) →
      decodeBytes c [k, g, s, d] = .ok i := fun hi he => congrArg Except.ok (decoded hi he)
  refine ⟨bytes rfl ?_, bytes rfl ?_, bytes ?_ rfl, decoded rfl ?_, rfl, rfl, rfl, rfl, rfl⟩
  · rw [encode, h0]
  · rw [encode, h1]
  · simp [Instr.wf, h0, h1]
  · rw [encode, h0]; rfl

/-! ### The response codes -/

/-- Settles O5, result by result. -/
theorem resultCodes : Obligations.ResultCodes := by
  refine ⟨rfl, rfl, rfl, rfl, rfl, fun r => ?_⟩
  cases r <;> decide

end Sys2Proof.Machine
end

section
/-! The commands (40_registry_validate.md): which indices VALIDATE accepts, how a submit reaches its row, and what a
command does to the core and to the account of its submitter. -/

namespace Sys2Proof.Machine

/-! ### VALIDATE -/

/-- Settles O12: the bounds are the lengths of each kind's tables. -/
theorem acceptedIndexSets : Obligations.AcceptedIndexSets :=
  ⟨fun _ _ _ => validate_iff, fun _ _ _ => validate_iff, rfl, rfl⟩

/-! ### A step whose next move is a submit -/

theorem step_of_submit {s : State} {r : Requester} {cmd : Command} {es : List Event}
    (he : s.events = .submit r cmd :: es) : step s = submit r cmd { s with events := es } := by
  rw [step, nextMove, he]
  rfl

/-- Settles O6: SUBMIT admits the requester and runs the row with the command presented. -/
theorem stepRunsSubmittedCommand : Obligations.StepRunsSubmittedCommand := by
  intro s r cmd es he hr
  rw [step_of_submit he, submit, if_pos (by simpa using hr), present]

/-- Settles O9: SUBMIT admits no identity outside `REQUESTERS`. -/
theorem submitOutsideRequestersRefused : Obligations.SubmitOutsideRequestersRefused := by
  intro s r cmd es he hr
  rw [step_of_submit he, submit, if_neg (by simpa using hr)]

/-! ### Acceptance -/

/-- A codeword that BUILD gives is the three fragments its indices name, group first (41_codeword.md R120). -/
theorem fragments_of_build {m : Memory} {k : Kind} {g s d : Byte} {cw : Codeword} (h : build m k g s d = some cw) :
    ∃ fg fs fd, romRead m k .groups g = some fg ∧ romRead m k .sockets s = some fs ∧
      romRead m k .dataCodes d = some fd ∧ cw = fg ++ fs ++ fd := by
  rw [build] at h
  split at h
  · rename_i fg fs fd hg hs hd
    cases h
    exact ⟨fg, fs, fd, hg, hs, hd, rfl⟩
  · cases h

/-- An idle core that samples the grant accepts a validated command of either kind (40_registry_validate.md R105). -/
theorem submitProfile_accepts {s : State} (hc : s.config.wf = true) (ht : s.txState = .idle)
    (hg : (sampleGrant s).1 = true) {k : Kind} {g so d : Byte} (hv : validate k g so d = true) (kind : Byte) :
    ∃ fg fs fd, romRead s.config.rom k .groups g = some fg ∧ romRead s.config.rom k .sockets so = some fs ∧
      romRead s.config.rom k .dataCodes d = some fd ∧
      submitProfile k (packCommand kind g so d) s = .next { (sampleGrant s).2 with
        req := some ⟨kind, g, so, d⟩, cw := some (fg ++ fs ++ fd), owner := some s.submitter,
        txState := .transmitting, seq := some ⟨0, 0, 0, .high⟩ } := by
  obtain ⟨cw, hb⟩ := build_isSome hc hv
  obtain ⟨fg, fs, fd, hfg, hfs, hfd, rfl⟩ := fragments_of_build hb
  refine ⟨fg, fs, fd, hfg, hfs, hfd, ?_⟩
  simp only [submitProfile, accept, accepted, SeqPos.start, ht, hg, hv, hb, sampleGrant_config, cmdKind_packCommand,
    cmdGroup_packCommand, cmdSocket_packCommand, cmdData_packCommand, if_true]

/-- Settles O15: both rows are SUBMIT of their profile. -/
theorem validCommandAccepted : Obligations.ValidCommandAccepted := by
  intro g so d s hc ht hg
  exact ⟨fun h1 h2 h3 => submitProfile_accepts hc ht hg (validate_iff.mpr ⟨h1, h2, h3⟩) s.config.kindPT2260,
    fun h1 h2 h3 => submitProfile_accepts hc ht hg (validate_iff.mpr ⟨h1, h2, h3⟩) s.config.kindPT2262⟩

/-! ### What a command can do -/

/-- The next states of the command `cmd` at the command input: its submitter is answered, with or without a look at the
grant, or it is held, or it is accepted (40_registry_validate.md R105). -/
inductive CommandOutcome (cmd : Command) (s : State) : State → Prop
  | answered (x : Result) : CommandOutcome cmd s (respond s.submitter x s)
  | answeredInIdle (ht : s.txState = .idle) (x : Result) :
    CommandOutcome cmd s (respond s.submitter x (sampleGrant s).2)
  | held : CommandOutcome cmd s { s with wait := waitInsert (s.submitter, cmd) s.wait }
  | accepted (ht : s.txState = .idle) (cw : Codeword) :
    CommandOutcome cmd s (accepted s.submitter cmd cw (sampleGrant s).2)

theorem submitProfile_outcome {k : Kind} {cmd : Command} {s t : State} (h : submitProfile k cmd s = .next t) :
    CommandOutcome cmd s t := by
  rcases submitProfile_next h with
    ⟨_, rfl⟩ | ⟨_, ⟨_, _, rfl⟩ | ⟨_, _, rfl⟩ | ⟨ht, _, rfl⟩ | ⟨ht, _, ha⟩⟩
  · exact .answered _
  · exact .answered _
  · exact .held
  · exact .answeredInIdle ht _
  · obtain ⟨cw, _, rfl⟩ := accept_next.mp ha
    exact .accepted ht cw

/-- A command that a requester submits has one of these outcomes. -/
theorem exec_command_outcome {cmd : Command} {s t : State} (h : exec (decode s.config (.cmd cmd)) s = .next t) :
    CommandOutcome cmd s t := by
  rw [exec_command s.config cmd s rfl] at h
  split at h
  · exact submitProfile_outcome h
  · cases h; exact .answered _

/-- So has each command row, for the command word that the row encodes to. -/
theorem exec_commandRow_outcome {i : Instr} {s t : State} (hi : isSequencerRow i = false) (h : exec i s = .next t) :
    ∃ cmd, encode s.config i = .cmd cmd ∧ CommandOutcome cmd s t := by
  cases i with
  | txPT2260 g so d => exact ⟨_, rfl, submitProfile_outcome h⟩
  | txPT2262 g so d => exact ⟨_, rfl, submitProfile_outcome h⟩
  | txUnknown k g so d => cases h; exact ⟨_, rfl, .answered .unknownEncoder⟩
  | sym0 => cases hi
  | sym1 => cases hi
  | symF => cases hi
  | symRsv => cases hi
  | sync => cases hi

/-- Settles O47, outcome by outcome. -/
theorem commandFrame : Obligations.CommandFrame := by
  intro i s t hi h
  have hrow : isSequencerRow i = false := by
    rcases hi with ⟨_, _, _, rfl⟩ | ⟨_, _, _, rfl⟩ | ⟨_, _, _, _, rfl⟩ <;> rfl
  obtain ⟨cmd, hcmd, ho⟩ := exec_commandRow_outcome hrow h
  cases ho with
  | answered x =>
    exact ⟨rfl, fun _ => rfl, rfl, rfl, .inl rfl, rfl, rfl, rfl, rfl, rfl, rfl, rfl,
      .inl ⟨rfl, rfl, rfl, rfl, rfl, .inl ⟨rfl, x, rfl⟩⟩⟩
  | answeredInIdle ht x =>
    exact ⟨rfl, fun _ => rfl, rfl, rfl, .inr ⟨ht, rfl⟩, look_draws _, look_drawCount _, rfl, rfl, rfl, rfl, rfl,
      .inl ⟨rfl, rfl, rfl, rfl, rfl, .inl ⟨rfl, x, rfl⟩⟩⟩
  | held =>
    exact ⟨rfl, fun _ => rfl, rfl, rfl, .inl rfl, rfl, rfl, rfl, rfl, rfl, rfl, rfl,
      .inl ⟨rfl, rfl, rfl, rfl, rfl, .inr ⟨rfl, cmd, hcmd, fun _ => mem_waitInsert⟩⟩⟩
  | accepted ht cw =>
    exact ⟨rfl, fun _ => rfl, rfl, rfl, .inr ⟨ht, rfl⟩, look_draws _, look_drawCount _, rfl, rfl, rfl, rfl, rfl,
      .inr ⟨ht, rfl, rfl, rfl, rfl⟩⟩

/-! ### The account of a requester's submits -/

/-- The submits of `r` that are answered or outstanding. -/
def accounted (s : State) (r : Requester) : Nat := answered s r + outstanding s r

theorem answered_respond (r : Requester) (x : Result) (s : State) (r' : Requester) :
    answered (respond r x s) r' = answered s r' + if r = r' then 1 else 0 := by
  simp [answered, List.countP_cons]

/-- The end of a transmission answers its owner, whose command is outstanding no more. -/
theorem accounted_of_ended {s u : State} {r : Requester} {x : Result} (h : Ended s u r x) (r' : Requester) :
    accounted u r' = accounted s r' := by
  obtain ⟨-, -, -, ho⟩ := h.registers
  have hans : answered u r' = answered s r' + if r = r' then 1 else 0 := by
    simp [answered, h.resp, List.countP_cons]
  have hout : outstanding s r' = outstanding u r' + if r = r' then 1 else 0 := by
    simp [outstanding, h.owner, h.wait, ho, Nat.add_comm]
  rw [accounted, accounted, hans, hout]
  omega

/-- One response for each of some held commands. -/
theorem countP_responses (x : Result) (held : List (Requester × Command)) (r : Requester) :
    (held.map fun e => (e.1, x)).countP (fun e => e.1 == r) = held.countP fun e => e.1 == r :=
  List.countP_map

/-- RESUME_WAITING answers a held command or makes it the transmission, so that none is lost and none is answered twice
(44_transmitter.md R188). -/
theorem resumeWaiting_accounted {s t : State} (ho : s.owner = none) (h : resumeWaiting s = .next t) (r : Requester) :
    accounted t r = accounted s r := by
  rcases resumeWaiting_next h with
    ⟨rejected, _, _, _, hperm, rfl⟩ | ⟨rejected, w, e, _, _, _, _, _, hperm, _, _, _, _, rfl⟩
  · have hcount := hperm.countP_eq fun x => x.1 == r
    simp only [accounted, answered, outstanding, ho, reduceCtorEq, if_false, List.countP_append, countP_responses, hcount,
      List.countP_nil, Nat.zero_add, Nat.add_zero]
  · have hcount := hperm.countP_eq fun x => x.1 == r
    rw [List.countP_cons, List.countP_append] at hcount
    simp only [accounted, answered, outstanding, accepted, ho, Option.some.injEq, reduceCtorEq, if_false,
      List.countP_append, countP_responses, ← hcount, beq_iff_eq]
    omega

/-- The sequencer submits nothing and keeps the account of every requester. -/
theorem sequencerMove_accounted {s t : State} (h : sequencerMove s = .next t) (r : Requester) :
    submitted t r = submitted s r ∧ accounted t r = accounted s r := by
  rcases sequencerMove_next h with ⟨_, rfl⟩ | ⟨_, i, hi, hx⟩
  · exact ⟨rfl, rfl⟩
  · rcases exec_sequencerRow_next hi hx with hgo | ⟨u, _, _, hend, hresume⟩
    · simp [submitted, accounted, answered, outstanding, hgo.subs, hgo.resp, hgo.owner, hgo.wait]
    · obtain ⟨-, -, -, ho⟩ := hend.registers
      exact ⟨by rw [submitted, (resumeWaiting_respGrows hresume).subs, hend.subs, submitted],
        (resumeWaiting_accounted ho hresume r).trans (accounted_of_ended hend r)⟩

/-- A command is answered or outstanding afterwards, if the same command is not held already (log 11). -/
theorem accounted_of_commandOutcome {cmd : Command} {s t : State} (h : CommandOutcome cmd s t) (hi : CoreInv s)
    (hnew : (s.submitter, cmd) ∉ s.wait) (r : Requester) :
    accounted t r = accounted s r + if s.submitter = r then 1 else 0 := by
  cases h with
  | answered x => rw [accounted, answered_respond, Nat.add_right_comm]; rfl
  | answeredInIdle _ x => rw [accounted, answered_respond, Nat.add_right_comm]; rfl
  | held => rw [accounted, outstanding_hold hnew, ← Nat.add_assoc]; rfl
  | accepted ht cw =>
    obtain ⟨-, -, -, ho⟩ := hi.idle_registers ht
    rw [accounted, outstanding_accepted (by simpa using ho), ← Nat.add_assoc]; rfl

theorem submitted_present (r : Requester) (cmd : Command) (s : State) (r' : Requester) :
    submitted (present r cmd s) r' = submitted s r' + if r = r' then 1 else 0 := by
  simp [submitted, List.countP_cons]

/-- In every step but a reset, the submits of a requester grow as its account does (40_registry_validate.md R106). -/
theorem step_accounted {s t : State} (hi : CoreInv s) (h : step s = .next t) (hreset : resetNext s = false)
    (hnew : ∀ r cmd es, s.events = .submit r cmd :: es → (r, cmd) ∉ s.wait) (r : Requester) :
    submitted t r + accounted s r = submitted s r + accounted t r := by
  rcases step_next h with ⟨_, hm⟩ | ⟨es, ⟨_, hm⟩ | ⟨r', cmd, he, _, hx⟩ | ⟨he, _⟩ | ⟨he, _⟩⟩
  · obtain ⟨hsub, hacc⟩ := sequencerMove_accounted hm r
    rw [hsub, hacc]
  · obtain ⟨hsub, hacc⟩ := sequencerMove_accounted hm r
    rw [hsub, hacc]; rfl
  · have hpresent : CoreInv (present r' cmd { s with events := es }) := hi.untouched ..
    have hsub : submitted t r = submitted s r + if r' = r then 1 else 0 := by
      rw [submitted, (exec_command_respGrows (s := present r' cmd { s with events := es }) hx).subs]
      exact submitted_present r' cmd _ r
    have hacc : accounted t r = accounted s r + if r' = r then 1 else 0 :=
      accounted_of_commandOutcome (exec_command_outcome (s := present r' cmd { s with events := es }) hx) hpresent
        (hnew r' cmd es he) r
    omega
  · simp [resetNext, he, isReset] at hreset
  · simp [resetNext, he, isReset] at hreset

/-- Settles O45: what is accounted for is the sum of responses and outstanding commands. -/
theorem everySubmitAccountedFor : Obligations.EverySubmitAccountedFor := by
  intro s t hi h hreset hnew r
  simpa only [accounted, Nat.add_assoc] using step_accounted hi h hreset hnew r

end Sys2Proof.Machine
end

section
/-! The codewords (41_codeword.md): a well-formed ROM tells the indices of a table apart by their fragments (20_memory.md
R53), and a codeword tells its three fragments apart. -/

namespace Sys2Proof.Machine

/-! ### The fragments of one table -/

/-- A validated index of 8 bits keeps its value in the address's field of 4 bits (20_memory.md R55). -/
theorem toNat_setWidth_of_lt_tableLen {k : Kind} {t : Table} {i : Byte} (hi : i.toNat < tableLen k t) :
    (i.setWidth 4 : BitVec 4).toNat = i.toNat := by
  have hfits : i.toNat < 2 ^ 4 := hi.trans_le (tableLen_le k t)
  rw [BitVec.toNat_setWidth, Nat.mod_eq_of_lt hfits]

/-- A validated index reads the address that it names. -/
theorem romRead_of_lt_tableLen (m : Memory) {k : Kind} {t : Table} {i : Byte} (hi : i.toNat < tableLen k t) :
    romRead m k t i = m.read (romaddr k t (i.setWidth 4)).toNat :=
  if_pos (hi.trans_le (tableLen_le k t))

/-- The address that a validated index names belongs to the table. -/
theorem romaddr_mem_tableAddresses {k : Kind} {t : Table} {i : Byte} (hi : i.toNat < tableLen k t) :
    (romaddr k t (i.setWidth 4)).toNat ∈ tableAddresses k t :=
  List.mem_map.mpr ⟨i.toNat, List.mem_range.mpr hi, rfl⟩

theorem tableAddresses_subset_romAddresses (k : Kind) (t : Table) : tableAddresses k t ⊆ romAddresses := by
  intro a ha
  simp only [romAddresses, List.mem_append]
  cases k <;> cases t <;> simp only [ha, true_or, or_true]

/-- A well-formed ROM lists a word at every address of a table, so that no read is dropped from the table's words. -/
theorem map_some_tableWords {c : Config} (h : c.wf = true) (k : Kind) (t : Table) :
    (tableWords c.rom k t).map some = (tableAddresses k t).map c.rom.read := by
  rw [tableWords, List.map_filterMap_some_eq_filter_map_isSome, List.filter_eq_self]
  intro w hw
  obtain ⟨a, ha, rfl⟩ := List.mem_map.mp hw
  rw [read_isSome_iff, rom_addresses h]
  exact tableAddresses_subset_romAddresses k t ha

/-- The words of one table are pairwise distinct (20_memory.md R53). -/
theorem tableWords_nodup {c : Config} (h : c.wf = true) (k : Kind) (t : Table) : (tableWords c.rom k t).Nodup := by
  have hdistinct : distinctOk c.rom = true := passes_of_wf h .distinct
  have htables := List.all_eq_true.mp hdistinct k (by cases k <;> decide)
  exact of_decide_eq_true (List.all_eq_true.mp htables t (by cases t <;> decide))

/-- So the addresses of one table read as different words. -/
theorem read_injOn_tableAddresses {c : Config} (h : c.wf = true) {k : Kind} {t : Table} {a b : Nat}
    (ha : a ∈ tableAddresses k t) (hb : b ∈ tableAddresses k t) (hab : c.rom.read a = c.rom.read b) : a = b := by
  have hnodup : ((tableAddresses k t).map c.rom.read).Nodup := by
    rw [← map_some_tableWords h]
    exact (tableWords_nodup h k t).map (Option.some_injective _)
  exact List.inj_on_of_nodup_map hnodup ha hb hab

/-- Validated indices of one table that name the same fragment are the same index. -/
theorem romRead_injOn {c : Config} (h : c.wf = true) {k : Kind} {t : Table} {i j : Byte} (hi : i.toNat < tableLen k t)
    (hj : j.toNat < tableLen k t) (hij : romRead c.rom k t i = romRead c.rom k t j) : i = j := by
  rw [romRead_of_lt_tableLen _ hi, romRead_of_lt_tableLen _ hj] at hij
  have haddr := read_injOn_tableAddresses h (romaddr_mem_tableAddresses hi) (romaddr_mem_tableAddresses hj) hij
  rw [romaddr_toNat, romaddr_toNat, toNat_setWidth_of_lt_tableLen hi, toNat_setWidth_of_lt_tableLen hj] at haddr
  exact BitVec.eq_of_toNat_eq (Nat.add_left_cancel haddr)

/-! ### The fragments of a codeword -/

/-- A concatenation of words of known widths determines both parts. -/
theorem append_parts_inj {v w : Nat} {x x' : BitVec v} {y y' : BitVec w} (h : x ++ y = x' ++ y') : x = x' ∧ y = y' := by
  have hleft := congrArg (BitVec.extractLsb' w v) h
  have hright := congrArg (BitVec.extractLsb' 0 w) h
  rw [BitVec.extractLsb'_append_eq_left, BitVec.extractLsb'_append_eq_left] at hleft
  rw [BitVec.extractLsb'_append_eq_right, BitVec.extractLsb'_append_eq_right] at hright
  exact ⟨hleft, hright⟩

/-- Settles O19: each symbol of the concatenation lies in one of the three fragments. -/
theorem codewordConcatenatesFragments : Obligations.CodewordConcatenatesFragments := by
  intro c k g s d hc hv
  obtain ⟨cw, hb⟩ := build_isSome hc hv
  obtain ⟨fg, fs, fd, hfg, hfs, hfd, rfl⟩ := fragments_of_build hb
  refine ⟨_, fg, fs, fd, hb, hfg, hfs, hfd, fun j hj => ?_⟩
  rw [Nat.add_comm 4 j, Nat.add_comm 8 j]
  exact cwSymbol_append fg fs fd hj

/-- Settles O21: equal codewords have equal fragments, and those name equal indices (20_memory.md R53). -/
theorem codewordsDistinct : Obligations.CodewordsDistinct := by
  intro c k g s d g' s' d' hc hv hv' heq
  obtain ⟨cw, hb⟩ := build_isSome hc hv
  obtain ⟨fg, fs, fd, hfg, hfs, hfd, hcw⟩ := fragments_of_build hb
  obtain ⟨fg', fs', fd', hfg', hfs', hfd', hcw'⟩ := fragments_of_build (heq ▸ hb)
  obtain ⟨hgroupSocket, rfl⟩ := append_parts_inj (hcw.symm.trans hcw')
  obtain ⟨rfl, rfl⟩ := append_parts_inj hgroupSocket
  obtain ⟨hg, hs, hd⟩ := validate_iff.mp hv
  obtain ⟨hg', hs', hd'⟩ := validate_iff.mp hv'
  exact ⟨romRead_injOn hc hg hg' (hfg.trans hfg'.symm), romRead_injOn hc hs hs' (hfs.trans hfs'.symm),
    romRead_injOn hc hd hd' (hfd.trans hfd'.symm)⟩

/-! ### The codewords the source gives -/

/-- BUILD of three cells that hold a fragment. -/
theorem build_of_romRead {m : Memory} {k : Kind} {g s d fg fs fd : Byte} (hg : romRead m k .groups g = some fg)
    (hs : romRead m k .sockets s = some fs) (hd : romRead m k .dataCodes d = some fd) :
    build m k g s d = some (fg ++ fs ++ fd) := by
  simp only [build, hg, hs, hd]

/-- Settles O20: the known cells of the ROM (20_memory.md R51) are the fragments of both codewords. -/
theorem knownCodewords : Obligations.KnownCodewords := by
  intro c hc
  have hknown := passes_of_wf hc .knownCells
  simp only [Config.passes, Bool.and_eq_true, beq_iff_eq] at hknown
  obtain ⟨⟨⟨⟨⟨hg0, hs0⟩, hd1⟩, hg15⟩, hs3⟩, hd0⟩ := hknown
  exact ⟨build_of_romRead (k := .pt2260) (g := 0) (s := 0) (d := 1) hg0 hs0 hd1,
    build_of_romRead (k := .pt2262) (g := 15) (s := 3) (d := 0) hg15 hs3 hd0⟩

end Sys2Proof.Machine
end

section
/-! The pulse pairs of the encoder (42_bit_encoder.md) as the sequencer plays them: one pair is two executions of its row,
so a symbol is four and sync two. -/

namespace Sys2Proof.Machine

/-! ### Draws in a row -/

@[simp] theorem afterDraws_txState (n : Nat) (s : State) : (afterDraws n s).txState = s.txState := by
  induction n generalizing s with
  | zero => rfl
  | succ n ih => rw [afterDraws, ih, draw_txState]

theorem afterDraws_add (m n : Nat) (s : State) : afterDraws (m + n) s = afterDraws n (afterDraws m s) := by
  induction m generalizing s with
  | zero => rw [Nat.zero_add, afterDraws]
  | succ m ih => rw [Nat.succ_add, afterDraws, ih, afterDraws]

theorem drawsOk_add (m n : Nat) (s : State) : drawsOk (m + n) s = (drawsOk m s && drawsOk n (afterDraws m s)) := by
  induction m generalizing s with
  | zero => rw [Nat.zero_add, drawsOk, afterDraws, Bool.true_and]
  | succ m ih => rw [Nat.succ_add, drawsOk, ih, drawsOk, afterDraws, Bool.and_assoc]

/-- The next draws depend on the platform's inputs and on whether a transmission runs, and on nothing else. -/
theorem draws_congr {s s' : State} (hp : s.platform = s'.platform) (ht : s.txState = s'.txState) (n : Nat) :
    drawsOk n s = drawsOk n s' ∧ (afterDraws n s).platform = (afterDraws n s').platform := by
  induction n generalizing s s' with
  | zero => exact ⟨rfl, hp⟩
  | succ n ih =>
    obtain ⟨hresult, hplatform⟩ := draw_congr hp ht
    obtain ⟨hok, hafter⟩ := ih hplatform (by simp [ht])
    exact ⟨by simp only [drawsOk, hresult, hok], hafter⟩

/-! ### Repeated execution -/

theorem execTimes_one (i : Instr) (s : State) : execTimes i 1 s = exec i s := by
  rw [execTimes]
  cases exec i s <;> rfl

theorem execTimes_add {i : Instr} {m : Nat} {s t : State} (h : execTimes i m s = .next t) (n : Nat) :
    execTimes i (m + n) s = execTimes i n t := by
  induction m generalizing s with
  | zero => cases h; rw [Nat.zero_add]
  | succ m ih =>
    rw [execTimes] at h
    rw [Nat.succ_add, execTimes]
    cases he : exec i s with
    | next u => rw [he] at h; exact ih h
    | fault f => rw [he] at h; cases h
    | refused r => rw [he] at h; cases h

/-! ### One step at a position -/

/-- A position without a pair at `SEQ` is passed at once (42_bit_encoder.md R145). -/
theorem playPairs_of_none {pairs : List Pair} {q : SeqPos} {s : State} (hq : s.seq = some q)
    (hp : pairs[q.pair]? = none) : playPairs pairs s = nextPosition q s := by
  simp only [playPairs, hq, hp]

/-- The state after a half of a pair whose drive succeeded, but for `SEQ`: the line, the segment and one draw. -/
def afterHalf (l : Level) (p : Pair) (s : State) : State :=
  { s with
    line := lineAfter l .ok
    trace := s.trace ++ [⟨l, halfUs s.config.pUs p l⟩]
    platform := (draw s).2.platform }

/-- A half whose drive succeeds appends its segment, and `SEQ` goes on. -/
theorem playPairs_of_ok {pairs : List Pair} {p : Pair} {q : SeqPos} {s : State} (hq : s.seq = some q)
    (hp : pairs[q.pair]? = some p) (hd : (draw s).1 = .ok) :
    playPairs pairs s = nextHalf (decide (pairs.length ≤ q.pair + 1)) q (afterHalf q.phase p s) := by
  simp only [playPairs, hq, hp, playHalf_of_ok hd, drive_state, hd, emit, afterHalf]

/-- A half does not read `SEQ`. -/
theorem afterHalf_seq (l : Level) (p : Pair) (s : State) (x : Option SeqPos) :
    afterHalf l p { s with seq := x } = { afterHalf l p s with seq := x } := by
  simp only [afterHalf, (draw_congr (s := { s with seq := x }) (s' := s) rfl rfl).2]

/-- The draw after a half is the platform's next one. -/
theorem draw_afterHalf (l : Level) (p : Pair) (s : State) (x : Option SeqPos) :
    (draw { afterHalf l p s with seq := x }).1 = (draw (draw s).2).1 ∧
      (draw { afterHalf l p s with seq := x }).2.platform = (draw (draw s).2).2.platform :=
  draw_congr rfl (draw_txState s).symm

/-- The step past a half overwrites `SEQ` or, in FINISH, takes its value away; it does not read it. -/
theorem nextHalf_seq (last : Bool) (q : SeqPos) (s : State) (x : Option SeqPos) :
    nextHalf last q { s with seq := x } = nextHalf last q s := rfl

/-! ### The step past a position, case by case -/

/-- After a symbol comes the next position (44_transmitter.md R180). -/
theorem nextPosition_symbol {q : SeqPos} (s : State) (hpos : q.pos < cwLen) :
    nextPosition q s = .next { s with seq := some ⟨q.rep, q.pos + 1, 0, .high⟩ } :=
  if_pos hpos

/-- After the sync slot of a repetition that is not the last one comes the next repetition (44_transmitter.md R180). -/
theorem nextPosition_repetition {q : SeqPos} {s : State} (hpos : cwLen ≤ q.pos) (hrep : q.rep + 1 < s.config.repeatCount) :
    nextPosition q s = .next { s with seq := some ⟨q.rep + 1, 0, 0, .high⟩ } := by
  rw [nextPosition, if_neg (by omega), if_pos hrep]

/-- After the last sync slot the owner is answered `Ok` and, with nothing held, the core is `Idle` (44_transmitter.md R186). -/
theorem nextPosition_finish {q : SeqPos} {s : State} {r : Requester} (hpos : cwLen ≤ q.pos)
    (hrep : s.config.repeatCount ≤ q.rep + 1) (ho : s.owner = some r) (hw : s.wait = []) :
    nextPosition q s = .next (respond r .ok (release s)) := by
  rw [nextPosition, if_neg (by omega), if_neg (by omega), finish, ho]
  exact resumeWaiting_empty hw

/-! ### One pair, and the two pairs of a symbol -/

/-- The state after both halves of a pair, but for `SEQ`. -/
def afterPair (p : Pair) (s : State) : State := afterHalf .low p (afterHalf .high p s)

/-- A pair appends its two segments (43_waveform_emitter.md R166), leaves the line low and uses two draws. -/
theorem afterPair_eq (p : Pair) (s : State) :
    afterPair p s = { s with
      line := .low, trace := s.trace ++ pairSegments s.config.pUs p, platform := (afterDraws 2 s).platform } := by
  have hplatform : (draw (afterHalf .high p s)).2.platform = (afterDraws 2 s).platform :=
    (draw_afterHalf .high p s s.seq).2
  rw [afterPair, afterHalf, hplatform]
  simp [afterHalf, pairSegments, lineAfter]

/-- Two executions from the high half of a pair play that pair, when both drives succeed. -/
theorem execTimes_pair {i : Instr} (hi : isSequencerRow i = true) {p : Pair} {rep pos pair : Nat} {s : State}
    (hp : (instrPairs i)[pair]? = some p) (hq : s.seq = some ⟨rep, pos, pair, .high⟩) (hd : drawsOk 2 s = true) :
    execTimes i 2 s = nextHalf (decide ((instrPairs i).length ≤ pair + 1)) ⟨rep, pos, pair, .low⟩ (afterPair p s) := by
  simp only [drawsOk, Bool.and_true, Bool.and_eq_true, decide_eq_true_eq] at hd
  obtain ⟨hfirst, hsecond⟩ := hd
  have hhigh : execTimes i 1 s = .next { afterHalf .high p s with seq := some ⟨rep, pos, pair, .low⟩ } := by
    rw [execTimes_one, exec_sequencerRow hi, playPairs_of_ok hq hp hfirst]; rfl
  have hlow := (draw_afterHalf .high p s (some ⟨rep, pos, pair, .low⟩)).1.trans hsecond
  rw [execTimes_add hhigh 1, execTimes_one, exec_sequencerRow hi, playPairs_of_ok rfl hp hlow, afterHalf_seq,
    nextHalf_seq, afterPair]

/-- Four executions of a symbol from its first half play its two pairs, when all four drives succeed, and pass to the next
position. -/
theorem execTimes_symbol {i : Instr} (hi : isSequencerRow i = true) {p p' : Pair} (hpairs : instrPairs i = [p, p'])
    {rep pos : Nat} {s : State} (hpos : pos < cwLen) (hq : s.seq = some ⟨rep, pos, 0, .high⟩)
    (hd : drawsOk 4 s = true) :
    execTimes i 4 s = .next { s with
      line := .low, trace := s.trace ++ pairsSegments s.config.pUs [p, p'], seq := some ⟨rep, pos + 1, 0, .high⟩,
      platform := (afterDraws 4 s).platform } := by
  have hsplit : drawsOk 2 s = true ∧ drawsOk 2 (afterDraws 2 s) = true := by
    simpa only [drawsOk_add 2 2, Bool.and_eq_true] using hd
  obtain ⟨hfirst, hsecond⟩ := hsplit
  have hmid : execTimes i 2 s = .next { afterPair p s with seq := some ⟨rep, pos, 1, .high⟩ } := by
    rw [execTimes_pair hi (by rw [hpairs]; rfl) hq hfirst, hpairs]; rfl
  obtain ⟨hok, hplatform⟩ := draws_congr (s := { afterPair p s with seq := some ⟨rep, pos, 1, .high⟩ })
    (s' := afterDraws 2 s) (by rw [afterPair_eq]) (afterDraws_txState 2 s).symm 2
  rw [execTimes_add hmid 2, execTimes_pair hi (p := p') (by rw [hpairs]; rfl) rfl (hok.trans hsecond), afterPair_eq,
    hplatform, ← afterDraws_add, afterPair_eq, hpairs]
  simp [nextHalf, nextPosition_symbol, hpos, pairsSegments]

/-! ### The obligations -/

/-- Settles O28: each symbol is its two pairs, in order. -/
theorem symbolWaveforms : Obligations.SymbolWaveforms := by
  intro rep pos s hpos hq hd
  refine ⟨?_, ?_, ?_⟩ <;>
    · rw [execTimes_symbol rfl rfl hpos hq hd]
      simp [pairsSegments, pairSegments, halfUs]

/-- Settles O30: the code at a position is SYNC past the symbols alone, and its one pair ends the position. -/
theorem syncWaveform : Obligations.SyncWaveform := by
  constructor
  · intro c cw q
    have symbol : ∀ x : SymCode, decodeSymbol x ≠ .sync := by decide
    split
    · rename_i hlt
      exact iff_of_false (symbol _) (Nat.not_le.mpr hlt)
    · rename_i hge
      exact iff_of_true rfl (Nat.le_of_not_lt hge)
  · intro rep s hq hd
    have hpair : execTimes .sync 2 s = nextPosition ⟨rep, 12, 0, .low⟩ (afterPair ⟨1, 31⟩ s) :=
      execTimes_pair rfl rfl hq hd
    have hend : cwLen ≤ (⟨rep, 12, 0, .low⟩ : SeqPos).pos := Nat.le_refl 12
    rw [hpair]
    constructor
    · intro hrep
      rw [nextPosition_repetition (s := afterPair ⟨1, 31⟩ s) hend hrep, afterPair_eq]
      simp [pairSegments, halfUs]
    · intro hrep r ho hw
      refine ⟨_, nextPosition_finish hend hrep ho hw, rfl, ?_⟩
      simp [afterPair_eq, pairSegments, halfUs]

/-- Settles O24: the table of ENCODE and SYNC, row by row. -/
theorem pulseTable : Obligations.PulseTable := ⟨rfl, rfl, rfl, rfl, rfl⟩

/-- Settles O29: the reserved symbol has no pair at any position of `SEQ`. -/
theorem reservedSymbolSkipped : Obligations.ReservedSymbolSkipped := by
  intro q s hq hpos
  calc exec .symRsv s = playPairs [] s := exec_sequencerRow rfl s
    _ = nextPosition q s := playPairs_of_none hq rfl
    _ = .next { s with seq := some ⟨q.rep, q.pos + 1, 0, .high⟩ } := nextPosition_symbol s hpos

end Sys2Proof.Machine
end

section
/-! The halves of a pair as the emitter plays them (43_waveform_emitter.md): one execution of a row drives the line, appends
one segment and uses one draw. -/

namespace Sys2Proof.Machine

/-! ### One execution of a row, and where `SEQ` goes -/

/-- One execution of a row at a half whose drive succeeds. -/
theorem exec_half {i : Instr} (hi : isSequencerRow i = true) {p : Pair} {q : SeqPos} {s : State}
    (hp : (instrPairs i)[q.pair]? = some p) (hq : s.seq = some q) (hd : (draw s).1 = .ok) :
    exec i s = nextHalf (decide ((instrPairs i).length ≤ q.pair + 1)) q (afterHalf q.phase p s) := by
  rw [exec_sequencerRow hi, playPairs_of_ok hq hp hd]

/-- The state after a half is the drawn state with the line and one segment. -/
theorem afterHalf_eq_draw (l : Level) (p : Pair) (s : State) :
    afterHalf l p s =
      { (draw s).2 with line := lineAfter l .ok, trace := s.trace ++ [⟨l, halfUs s.config.pUs p l⟩] } := by
  rw [draw_state, afterHalf]

/-- After the high half of a pair comes its low half. -/
theorem nextHalf_high (last : Bool) {q : SeqPos} (hq : q.phase = .high) (s : State) :
    nextHalf last q s = .next { s with seq := some { q with phase := .low } } := by
  rw [nextHalf, hq]

/-- After the low half of a pair comes the next pair, or the step past the position. -/
theorem nextHalf_low (last : Bool) {q : SeqPos} (hq : q.phase = .low) (s : State) :
    nextHalf last q s =
      if last then nextPosition q s else .next { s with seq := some ⟨q.rep, q.pos, q.pair + 1, .high⟩ } := by
  rw [nextHalf, hq]

/-! ### The obligations -/

/-- Settles O26: the half of any pair of the row is the same, and the low half comes next. -/
theorem highHalfCompletes : Obligations.HighHalfCompletes := by
  intro i p q s hi hp hq hphase hd
  have hrow : isSequencerRow i = true := by obtain rfl | rfl | rfl | rfl := hi <;> rfl
  rw [exec_half hrow hp hq hd, nextHalf_high _ hphase, hphase, afterHalf_eq_draw]
  rfl

/-- Settles O27: a symbol has two pairs, so the pair at `SEQ` is the last one exactly when it is not the first. -/
theorem lowHalfOfSymbolCompletes : Obligations.LowHalfOfSymbolCompletes := by
  intro i p q s hi hp hq hphase hpos hd
  have hrow : isSequencerRow i = true := by obtain rfl | rfl | rfl := hi <;> rfl
  have hlength : (instrPairs i).length = 2 := by obtain rfl | rfl | rfl := hi <;> rfl
  rw [exec_half hrow hp hq hd, nextHalf_low _ hphase, hphase, afterHalf_eq_draw, hlength]
  by_cases hfirst : q.pair = 0
  · simp [hfirst, lineAfter, halfUs]
  · have hlast : 2 ≤ q.pair + 1 := by omega
    simp [hfirst, hlast, nextPosition_symbol _ hpos, lineAfter, halfUs]

/-- Settles O25: a drive is a draw and the line, and the look at `GRANT` belongs to the draw. -/
theorem driveSetsLine : Obligations.DriveSetsLine := by
  intro l s
  have hline {x : DriveResult} (h : (drive l s).1 = x) : (drive l s).2.line = lineAfter l x :=
    (drive_line l s).trans (congrArg (lineAfter l) h)
  have hgrant : (drive l s).2.platform.grant = s.platform.changes.getLastD s.platform.grant := by
    rw [drive_platform, draw_grant, look_grant]
  exact ⟨hline, hline, drive_config l s, drive_txState l s, drive_req l s, drive_cw l s, drive_seq l s, drive_owner l s,
    drive_wait l s, drive_trace l s, drive_resp l s, hgrant⟩

end Sys2Proof.Machine
end

section
/-! The steps of a transmission against the pseudocode of TRANSMIT (44_transmitter.md R180): one half of a pair is one step,
and a stretch of the pseudocode with `n` drives is `n` steps, or fewer that end in FAULT_EXIT. -/

namespace Sys2Proof.Machine

/-! ### Steps in a row -/

/-- One more step after an answer. A stop stays. -/
def stepOn : Answer → Answer
  | .next s => step s
  | .fault f => .fault f
  | .refused r => .refused r

/-- A run of the core is repeated stepping. -/
theorem core_run_eq (n : Nat) (s : State) : core.run n s = stepOn^[n] (.next s) := by
  induction n generalizing s with
  | zero => rfl
  | succ n ih =>
    have hrun (M : Host.Core) (x : M.State) : M.run (n + 1) x =
      match M.step x with
      | .next y => M.run n y
      | .fault f => .fault f
      | .refused r => .refused r := rfl
    rw [Function.iterate_succ_apply]
    refine (hrun core s).trans ?_
    change _ = stepOn^[n] (core.step s)
    cases core.step s with
    | next t => exact ih t
    | fault f => exact (Function.iterate_fixed rfl n).symm
    | refused r => exact (Function.iterate_fixed rfl n).symm

/-! ### The sequencer's turn -/

/-- The sequencer waits while `Idle` (60_exceptions.md R235). -/
theorem sequencerMove_idle {s : State} (ht : s.txState = .idle) : sequencerMove s = .next s := by
  simp only [sequencerMove, ht]

/-- While `Transmitting` the sequencer runs the row of the code at `SEQ` (44_transmitter.md R180). -/
theorem sequencerMove_transmitting {s : State} {q : SeqPos} {cw : Codeword} (ht : s.txState = .transmitting)
    (hq : s.seq = some q) (hcw : s.cw = some cw) : sequencerMove s = exec (decode s.config (codeAt cw q)) s := by
  simp only [sequencerMove, ht, fetchCode_eq hq hcw]

theorem step_of_empty {s : State} (he : s.events = []) : step s = sequencerMove s := by
  rw [step, nextMove, he]

theorem step_of_sequencer {s : State} {es : List Event} (he : s.events = .sequencer :: es) :
    step s = sequencerMove { s with events := es } := by
  rw [step, nextMove, he]
  rfl

/-- Settles O7: with the schedule empty or its head taken off, the sequencer's move is the row at `SEQ`. -/
theorem stepRunsSequencerInstruction : Obligations.StepRunsSequencerInstruction := by
  intro s q cw ht hq hcw
  refine ⟨fun he => ?_, fun es he => ?_⟩
  · exact (step_of_empty he).trans (sequencerMove_transmitting ht hq hcw)
  · exact (step_of_sequencer he).trans (sequencerMove_transmitting (s := { s with events := es }) ht hq hcw)

/-- Settles O52: an idle core has no owner and holds nothing, so that nothing is outstanding. -/
theorem idleCoreIsQuiescent : Obligations.IdleCoreIsQuiescent := by
  intro s h ht hsubs
  obtain ⟨-, -, -, ho⟩ := h.idle_registers ht
  have hw : s.wait = [] := h.waitIdle ht
  refine ⟨⟨ht, hw, fun r => ?_⟩, fun he => ?_⟩
  · simpa [outstanding, ho, hw] using hsubs r
  · rw [step_of_empty he, sequencerMove_idle ht]

/-! ### The pseudocode in sequence -/

/-- One stretch of the pseudocode after another: a failed drive ends both. -/
def andThen (r : DriveResult × State) (f : State → DriveResult × State) : DriveResult × State :=
  match r with
  | (.fail, s) => (.fail, s)
  | (.ok, s) => f s

@[simp] theorem andThen_fail (s : State) (f : State → DriveResult × State) : andThen (.fail, s) f = (.fail, s) := rfl
@[simp] theorem andThen_ok (s : State) (f : State → DriveResult × State) : andThen (.ok, s) f = f s := rfl

theorem transmitPairs_cons (rep pos pair : Nat) (p : Pair) (ps : List Pair) (s : State) :
    transmitPairs rep pos pair (p :: ps) s =
      andThen (pulse p { s with seq := some ⟨rep, pos, pair, .high⟩ }) (transmitPairs rep pos (pair + 1) ps) := by
  rfl

theorem transmitSymbols_succ (rep : Nat) (cw : Codeword) (pos n : Nat) (s : State) :
    transmitSymbols rep cw pos (n + 1) s =
      andThen (transmitPairs rep pos 0 (symbolPairs (cwSymbol cw pos)) s) (transmitSymbols rep cw (pos + 1) n) := by
  rfl

theorem transmitRepetition_eq (rep : Nat) (cw : Codeword) (s : State) :
    transmitRepetition rep cw s =
      andThen (transmitSymbols rep cw 0 cwLen s) (transmitPairs rep cwLen 0 syncPairs) := by
  rfl

theorem transmitRepetitions_succ (cw : Codeword) (rep n : Nat) (s : State) :
    transmitRepetitions cw rep (n + 1) s =
      andThen (transmitRepetition rep cw s) (transmitRepetitions cw (rep + 1) n) := by
  rfl

/-- One half of `PULSE(h, l)` (43_waveform_emitter.md R160). -/
def halfPulse (l : Level) (p : Pair) (s : State) : DriveResult × State :=
  andThen (drive l s) fun u => (.ok, emit l (halfUs s.config.pUs p l) u)

theorem halfPulse_of_fail {s : State} (hd : (draw s).1 = .fail) (l : Level) (p : Pair) :
    halfPulse l p s = (.fail, (drive l s).2) := by
  have hdrive : drive l s = (.fail, (drive l s).2) := Prod.ext hd rfl
  rw [halfPulse, hdrive, andThen_fail]

theorem halfPulse_of_ok {s : State} (hd : (draw s).1 = .ok) (l : Level) (p : Pair) :
    halfPulse l p s = (.ok, afterHalf l p s) := by
  have hdrive : drive l s = (.ok, (drive l s).2) := Prod.ext hd rfl
  rw [halfPulse, hdrive, andThen_ok, drive_state, hd]
  rfl

/-- PULSE is its two halves. -/
theorem pulse_eq (p : Pair) (s : State) : pulse p s = andThen (halfPulse .high p s) (halfPulse .low p) := by
  have hdrives : pulse p s = andThen (drive .high s) fun u =>
      andThen (drive .low (emit .high (halfUs s.config.pUs p .high) u)) fun v =>
        (.ok, emit .low (halfUs s.config.pUs p .low) v) := rfl
  have hconfig : (drive .high s).2.config = s.config := drive_config .high s
  rw [hdrives, halfPulse, ← Prod.mk.eta (p := drive .high s)]
  cases (drive .high s).1 with
  | fail => rfl
  | ok => simp only [andThen_ok, halfPulse, emit_config, hconfig]

/-! ### Steps that follow the pseudocode -/

/-- A running transmission of the codeword `cw` under the configuration `c`, with no other move scheduled. -/
structure Running (c : Config) (cw : Codeword) (s : State) : Prop where
  config : s.config = c
  txState : s.txState = .transmitting
  cw : s.cw = some cw
  events : s.events = []

/-- The steps from `a` follow a stretch of the pseudocode with `n` drives and result `r`: if no drive fails, `n` steps reach
what `k` answers from the state the stretch ends in, and otherwise at most as many reach FAULT_EXIT. -/
def Follows (c : Config) (cw : Codeword) (n : Nat) (a : Answer) (k : State → Answer) : DriveResult × State → Prop
  | (.ok, u) => Running c cw u ∧ stepOn^[n] a = k u
  | (.fail, u) => ∃ m, 1 ≤ m ∧ m ≤ n ∧ stepOn^[m] a = faultExit u

/-- Stretches in sequence are followed in sequence. -/
theorem Follows.andThen {c : Config} {cw : Codeword} {m n : Nat} {a : Answer} {k k' : State → Answer}
    {r : DriveResult × State} {f : State → DriveResult × State} (h : Follows c cw m a k r)
    (hf : ∀ u, Running c cw u → Follows c cw n (k u) k' (f u)) : Follows c cw (m + n) a k' (Machine.andThen r f) := by
  obtain ⟨x, u⟩ := r
  cases x with
  | fail =>
    obtain ⟨i, hpos, hle, hi⟩ := h
    exact ⟨i, hpos, hle.trans (Nat.le_add_right m n), hi⟩
  | ok =>
    obtain ⟨hu, hm⟩ := h
    have hnext := hf u hu
    have hadd (i : Nat) : stepOn^[m + i] a = stepOn^[i] (k u) := by
      rw [Nat.add_comm, Function.iterate_add_apply, hm]
    change Follows c cw (m + n) a k' (f u)
    generalize f u = r at hnext
    obtain ⟨x, v⟩ := r
    cases x with
    | ok => exact ⟨hnext.1, (hadd n).trans hnext.2⟩
    | fail =>
      obtain ⟨i, hpos, hle, hi⟩ := hnext
      exact ⟨m + i, hpos.trans (Nat.le_add_left i m), Nat.add_le_add_left hle m, (hadd i).trans hi⟩

/-- A drive neither reads nor writes `SEQ`. -/
theorem drive_seq_update (l : Level) (s : State) (x : Option SeqPos) :
    (drive l { s with seq := x }).2 = { (drive l s).2 with seq := x } := by
  obtain ⟨hresult, hplatform⟩ := draw_congr (s := { s with seq := x }) (s' := s) rfl rfl
  rw [drive_state, drive_state, hresult, hplatform]

/-- FAULT_EXIT takes the value of `SEQ` away and does not read it. -/
theorem faultExit_seq (s : State) (x : Option SeqPos) : faultExit { s with seq := x } = faultExit s := by
  rw [faultExit, faultExit, drive_seq_update]
  rfl

/-- One step plays one half of a pair. -/
theorem halfPulse_follows {c : Config} {cw : Codeword} {s : State} (h : Running c cw s) {q : SeqPos} {p : Pair}
    (hp : (codePairs (codeAt cw q))[q.pair]? = some p) :
    Follows c cw 1 (.next { s with seq := some q })
      (nextHalf (decide ((codePairs (codeAt cw q)).length ≤ q.pair + 1)) q) (halfPulse q.phase p s) := by
  have hstep : stepOn^[1] (.next { s with seq := some q }) =
      playPairs (codePairs (codeAt cw q)) { s with seq := some q } := by
    rw [← exec_codeAt s.config]
    exact (step_of_empty (s := { s with seq := some q }) h.events).trans
      (sequencerMove_transmitting (s := { s with seq := some q }) h.txState rfl h.cw)
  obtain ⟨hresult, -⟩ := draw_congr (s := { s with seq := some q }) (s' := s) rfl rfl
  cases hd : (draw s).1 with
  | fail =>
    rw [halfPulse_of_fail hd]
    refine ⟨1, le_rfl, le_rfl, ?_⟩
    simp only [hstep, playPairs, hp]
    rw [playHalf_of_fail (hresult.trans hd), drive_seq_update, faultExit_seq]
  | ok =>
    rw [halfPulse_of_ok hd]
    refine ⟨⟨h.config, h.txState, h.cw, h.events⟩, ?_⟩
    rw [hstep, playPairs_of_ok rfl hp (hresult.trans hd), afterHalf_seq, nextHalf_seq]

/-- A pair is two steps. -/
theorem pulse_follows {c : Config} {cw : Codeword} {s : State} (h : Running c cw s) {rep pos pair : Nat} {p : Pair}
    (hp : (codePairs (codeAt cw ⟨rep, pos, pair, .high⟩))[pair]? = some p) :
    Follows c cw 2 (.next { s with seq := some ⟨rep, pos, pair, .high⟩ })
      (nextHalf (decide ((codePairs (codeAt cw ⟨rep, pos, pair, .high⟩)).length ≤ pair + 1))
        ⟨rep, pos, pair, .low⟩)
      (pulse p { s with seq := some ⟨rep, pos, pair, .high⟩ }) := by
  have hstart : Running c cw { s with seq := some ⟨rep, pos, pair, .high⟩ } := ⟨h.config, h.txState, h.cw, h.events⟩
  rw [pulse_eq]
  exact (halfPulse_follows hstart hp).andThen fun u hu => halfPulse_follows hu hp

/-- The pairs of a position, from any of them on, are two steps each. -/
theorem transmitPairs_follows {c : Config} {cw : Codeword} {rep pos : Nat} {ps : List Pair} (hps : ps ≠ []) :
    ∀ {pair : Nat} {s : State}, Running c cw s → (codePairs (codeAt cw ⟨rep, pos, 0, .high⟩)).drop pair = ps →
      Follows c cw (2 * ps.length) (.next { s with seq := some ⟨rep, pos, pair, .high⟩ })
        (nextPosition ⟨rep, pos, 0, .high⟩) (transmitPairs rep pos pair ps s) := by
  induction ps with
  | nil => exact absurd rfl hps
  | cons p ps ih =>
    intro pair s h hdrop
    have hp : (codePairs (codeAt cw ⟨rep, pos, pair, .high⟩))[pair]? = some p := by
      have := congrArg List.head? hdrop
      rwa [List.head?_drop] at this
    have htail : (codePairs (codeAt cw ⟨rep, pos, 0, .high⟩)).drop (pair + 1) = ps := by
      rw [← List.tail_drop, hdrop, List.tail_cons]
    have hlen : (codePairs (codeAt cw ⟨rep, pos, pair, .high⟩)).length = pair + 1 + ps.length := by
      have hcount : (codePairs (codeAt cw ⟨rep, pos, 0, .high⟩)).length - pair = ps.length + 1 := by
        simpa using congrArg List.length hdrop
      have hsame : codeAt cw ⟨rep, pos, pair, .high⟩ = codeAt cw ⟨rep, pos, 0, .high⟩ := rfl
      rw [hsame]
      omega
    rw [transmitPairs_cons, List.length_cons, Nat.mul_succ, Nat.add_comm]
    refine (pulse_follows h hp).andThen fun u hu => ?_
    rw [hlen]
    cases ps with
    | nil => exact ⟨hu, by simp [nextHalf, nextPosition]⟩
    | cons p' ps =>
      have hmore : nextHalf (decide (pair + 1 + (p' :: ps).length ≤ pair + 1)) ⟨rep, pos, pair, .low⟩ u =
          .next { u with seq := some ⟨rep, pos, pair + 1, .high⟩ } := by simp [nextHalf]
      rw [hmore]
      exact ih (List.cons_ne_nil p' ps) hu htail

/-- Every symbol of the codeword is of the alphabet: none is the reserved one (20_memory.md R52). -/
def SymbolsValid (cw : Codeword) : Prop := ∀ j, j < cwLen → cwSymbol cw j ≠ 3#2

/-- The codeword of a running transmission has valid symbols (41_codeword.md R125). -/
theorem CoreInv.symbolsValid {s : State} (h : CoreInv s) (ht : s.txState = .transmitting) {cw : Codeword}
    (hcw : s.cw = some cw) : SymbolsValid cw := by
  obtain ⟨req, _, _, _, hreq, _⟩ := h.transmitting_registers ht
  obtain ⟨k, _, _, hb⟩ := h.codeword req cw hreq hcw
  exact fun _ => cwSymbol_ne_reserved h.configWf hb

/-- A symbol of the alphabet has two pairs (42_bit_encoder.md R141 to R143). -/
theorem symbolPairs_length : ∀ {x : SymCode}, x ≠ 3#2 → (symbolPairs x).length = 2 := by
  decide

/-- The symbols from a position on are four steps each. -/
theorem transmitSymbols_follows {c : Config} {cw : Codeword} (hcw : SymbolsValid cw) {rep n : Nat} :
    ∀ {pos : Nat} {s : State}, Running c cw s → pos + n = cwLen →
      Follows c cw (4 * n) (.next { s with seq := some ⟨rep, pos, 0, .high⟩ })
        (fun u => .next { u with seq := some ⟨rep, cwLen, 0, .high⟩ }) (transmitSymbols rep cw pos n s) := by
  induction n with
  | zero =>
    rintro pos s h rfl
    exact ⟨h, rfl⟩
  | succ n ih =>
    intro pos s h hn
    have hpos : pos < cwLen := by omega
    have hcode : codePairs (codeAt cw ⟨rep, pos, 0, .high⟩) = symbolPairs (cwSymbol cw pos) := by
      rw [codeAt, if_pos hpos]; rfl
    have hlen := symbolPairs_length (hcw pos hpos)
    have hne : symbolPairs (cwSymbol cw pos) ≠ [] := List.ne_nil_of_length_pos (by omega)
    have hpairs := transmitPairs_follows hne h (pair := 0) hcode
    rw [hlen] at hpairs
    rw [transmitSymbols_succ, Nat.mul_succ, Nat.add_comm]
    refine hpairs.andThen fun u hu => ?_
    rw [nextPosition_symbol (q := ⟨rep, pos, 0, .high⟩) u hpos]
    exact ih (pos := pos + 1) hu (by omega)

/-- A repetition is the steps of its symbols and two of the sync slot. -/
theorem transmitRepetition_follows {c : Config} {cw : Codeword} (hcw : SymbolsValid cw) {rep : Nat}
    {s : State} (h : Running c cw s) :
    Follows c cw (4 * cwLen + 2) (.next { s with seq := some ⟨rep, 0, 0, .high⟩ })
      (nextPosition ⟨rep, cwLen, 0, .high⟩) (transmitRepetition rep cw s) := by
  rw [transmitRepetition_eq]
  refine (transmitSymbols_follows hcw h (Nat.zero_add cwLen)).andThen fun u hu => ?_
  exact transmitPairs_follows (ps := syncPairs) (List.cons_ne_nil _ _) hu rfl

/-- After the last sync slot comes FINISH (44_transmitter.md R180). -/
theorem nextPosition_last {q : SeqPos} {s : State} (hpos : cwLen ≤ q.pos) (hrep : s.config.repeatCount ≤ q.rep + 1) :
    nextPosition q s = finish s := by
  rw [nextPosition, if_neg (by omega), if_neg (by omega)]

/-- The repetitions from one on, to FINISH. -/
theorem transmitRepetitions_follows {c : Config} {cw : Codeword} (hcw : SymbolsValid cw) {n : Nat} :
    ∀ {rep : Nat} {s : State}, Running c cw s → rep + (n + 1) = c.repeatCount →
      Follows c cw ((n + 1) * (4 * cwLen + 2)) (.next { s with seq := some ⟨rep, 0, 0, .high⟩ }) finish
        (transmitRepetitions cw rep (n + 1) s) := by
  induction n with
  | zero =>
    intro rep s h hn
    rw [transmitRepetitions_succ, Nat.add_mul, Nat.one_mul, Nat.add_comm]
    refine (transmitRepetition_follows hcw h).andThen fun u hu => ⟨hu, ?_⟩
    have hlast : u.config.repeatCount ≤ rep + 1 := by rw [hu.config]; omega
    exact nextPosition_last le_rfl hlast
  | succ n ih =>
    intro rep s h hn
    rw [transmitRepetitions_succ, Nat.succ_mul, Nat.add_comm]
    refine (transmitRepetition_follows hcw h).andThen fun u hu => ?_
    have hmore : rep + 1 < u.config.repeatCount := by rw [hu.config]; omega
    rw [nextPosition_repetition (q := ⟨rep, cwLen, 0, .high⟩) le_rfl hmore]
    exact ih (rep := rep + 1) hu (by omega)

/-- A well-formed configuration has at least one repetition (70_reset_and_hazards.md R263, `repeat`). -/
theorem repeatCount_pos {c : Config} (h : c.wf = true) : 1 ≤ c.repeatCount := by
  have hrange := passes_of_wf h .repeatRange
  simp only [Config.passes, Bool.and_eq_true, decide_eq_true_eq] at hrange
  exact hrange.1

/-- TRANSMIT of a running transmission that stands where ACCEPT puts it. -/
theorem transmit_follows {s : State} {cw : Codeword} (hc : s.config.wf = true) (ht : s.txState = .transmitting)
    (hcw : s.cw = some cw) (he : s.events = []) (hq : s.seq = some ⟨0, 0, 0, .high⟩)
    (hsym : SymbolsValid cw) :
    Follows s.config cw (s.config.repeatCount * (4 * 12 + 2)) (.next s) finish
      (transmitRepetitions cw 0 s.config.repeatCount s) := by
  obtain ⟨n, hn⟩ := Nat.exists_eq_add_of_le' (repeatCount_pos hc)
  have hstart : s = { s with seq := some ⟨0, 0, 0, .high⟩ } := by rw [← hq]
  have hfollows := transmitRepetitions_follows hsym ⟨rfl, ht, hcw, he⟩ ((Nat.zero_add _).trans hn.symm)
  rw [← hstart, ← hn] at hfollows
  exact hfollows

/-- Settles O49: a failed drive takes steps and pseudocode to FAULT_EXIT in the same state, and otherwise both reach
FINISH. -/
theorem stepsRefineTransmit : Obligations.StepsRefineTransmit := by
  intro s h ht hq he
  obtain ⟨_, cw, _, _, _, hcw, _, _⟩ := h.transmitting_registers ht
  have hfollows := transmit_follows h.configWf ht hcw he hq (h.symbolsValid ht hcw)
  obtain ⟨hrep, -⟩ := seqInRange_iff.mp (h.seqRange _ hq)
  simp only [core_run_eq, transmit, hcw]
  generalize transmitRepetitions cw 0 s.config.repeatCount s = r at hfollows
  obtain ⟨x, u⟩ := r
  cases x with
  | fail => exact hfollows
  | ok => exact ⟨_, Nat.mul_pos hrep (by decide), le_rfl, hfollows.2⟩

end Sys2Proof.Machine
end

section
/-! A transmission without a fault: the segments the pseudocode emits when every drive succeeds (44_transmitter.md R182), how
long they are (R189), and how they alternate (R190). -/

namespace Sys2Proof.Machine

/-! ### What the pseudocode emits -/

/-- The state after a stretch of the pseudocode whose `n` drives succeeded and emitted `segs`, with `SEQ` at `x`: after a
drive the line is low, since every stretch ends with a low half. -/
def emitted (n : Nat) (segs : List Segment) (x : Option SeqPos) (s : State) : State :=
  { s with
    line := if n = 0 then s.line else .low
    trace := s.trace ++ segs
    platform := (afterDraws n s).platform
    seq := x }

/-- From `s` a stretch of the pseudocode with result `r` emits `segs` if its `n` drives succeed. -/
def Emits (s : State) (n : Nat) (segs : List Segment) (r : DriveResult × State) : Prop :=
  drawsOk n s = true → ∃ x, r = (.ok, emitted n segs x s)

theorem emits_nothing (s : State) : Emits s 0 [] (.ok, s) :=
  fun _ => ⟨s.seq, by simp [emitted, afterDraws]⟩

theorem emitted_emitted (m n : Nat) (a b : List Segment) (x y : Option SeqPos) (s : State) :
    emitted n b y (emitted m a x s) = emitted (m + n) (a ++ b) y s := by
  have hplatform : (afterDraws n (emitted m a x s)).platform = (afterDraws (m + n) s).platform := by
    rw [afterDraws_add]
    exact (draws_congr (s := emitted m a x s) (s' := afterDraws m s) rfl (afterDraws_txState m s).symm n).2
  have hline : (if n = 0 then (if m = 0 then s.line else .low) else Line.low) = if m + n = 0 then s.line else .low := by
    split <;> split <;> simp_all
  simp only [emitted, List.append_assoc] at hplatform ⊢
  rw [hplatform, hline]

/-- Stretches in sequence emit their segments in sequence. -/
theorem Emits.andThen {s : State} {m n : Nat} {a b : List Segment} {r : DriveResult × State}
    {f : State → DriveResult × State} (h : Emits s m a r) (hf : ∀ u, u.config = s.config → Emits u n b (f u)) :
    Emits s (m + n) (a ++ b) (Machine.andThen r f) := by
  intro hd
  rw [drawsOk_add, Bool.and_eq_true] at hd
  obtain ⟨x, rfl⟩ := h hd.1
  have hok : drawsOk n (emitted m a x s) = drawsOk n (afterDraws m s) :=
    (draws_congr (s := emitted m a x s) (s' := afterDraws m s) rfl (afterDraws_txState m s).symm n).1
  obtain ⟨y, hy⟩ := hf (emitted m a x s) rfl (hok.trans hd.2)
  exact ⟨y, hy.trans (by rw [emitted_emitted])⟩

/-- What is emitted does not depend on `SEQ`. -/
theorem Emits.of_seq {s : State} {x : Option SeqPos} {n : Nat} {segs : List Segment} {r : DriveResult × State}
    (h : Emits { s with seq := x } n segs r) : Emits s n segs r := by
  intro hd
  obtain ⟨hok, hplatform⟩ := draws_congr (s := { s with seq := x }) (s' := s) rfl rfl n
  obtain ⟨y, rfl⟩ := h (hok.trans hd)
  exact ⟨y, by simp only [emitted, hplatform]⟩

/-- PULSE emits its two segments (43_waveform_emitter.md R166). -/
theorem pulse_emits (p : Pair) (s : State) : Emits s 2 (pairSegments s.config.pUs p) (pulse p s) := by
  intro hd
  simp only [drawsOk, Bool.and_true, Bool.and_eq_true, decide_eq_true_eq] at hd
  obtain ⟨hhigh, hlow⟩ := hd
  have hnext : (draw (afterHalf .high p s)).1 = .ok := (draw_afterHalf .high p s s.seq).1.trans hlow
  refine ⟨s.seq, ?_⟩
  rw [pulse_eq, halfPulse_of_ok hhigh, andThen_ok, halfPulse_of_ok hnext, ← afterPair, afterPair_eq]
  rfl

theorem transmitPairs_emits (rep pos : Nat) (ps : List Pair) :
    ∀ (pair : Nat) (s : State),
      Emits s (2 * ps.length) (pairsSegments s.config.pUs ps) (transmitPairs rep pos pair ps s) := by
  induction ps with
  | nil => exact fun _ s => emits_nothing s
  | cons p ps ih =>
    intro pair s
    have hpulse : Emits s 2 (pairSegments s.config.pUs p) (pulse p { s with seq := some ⟨rep, pos, pair, .high⟩ }) :=
      Emits.of_seq (pulse_emits p { s with seq := some ⟨rep, pos, pair, .high⟩ })
    rw [transmitPairs_cons, List.length_cons, Nat.mul_succ, Nat.add_comm]
    exact hpulse.andThen fun u hu => hu ▸ ih (pair + 1) u

/-- The symbols of a codeword without the reserved one emit four segments each. -/
theorem transmitSymbols_emits {cw : Codeword} (hcw : SymbolsValid cw) (rep n : Nat) :
    ∀ (pos : Nat) (s : State), pos + n ≤ cwLen →
      Emits s (4 * n) (symbolsSegments s.config.pUs cw pos n) (transmitSymbols rep cw pos n s) := by
  induction n with
  | zero => exact fun _ s _ => emits_nothing s
  | succ n ih =>
    intro pos s hn
    have hlen := symbolPairs_length (hcw pos (by omega))
    have hpairs := transmitPairs_emits rep pos (symbolPairs (cwSymbol cw pos)) 0 s
    rw [hlen] at hpairs
    rw [transmitSymbols_succ, Nat.mul_succ, Nat.add_comm]
    exact hpairs.andThen fun u hu => hu ▸ ih (pos + 1) u (by omega)

theorem transmitRepetition_emits {cw : Codeword} (hcw : SymbolsValid cw) (rep : Nat) (s : State) :
    Emits s (4 * cwLen + 2) (repetitionSegments s.config.pUs cw) (transmitRepetition rep cw s) := by
  rw [transmitRepetition_eq]
  exact (transmitSymbols_emits hcw rep cwLen 0 s (Nat.zero_add cwLen).le).andThen fun u hu =>
    hu ▸ transmitPairs_emits rep cwLen syncPairs 0 u

/-- Repetitions are emitted back to back (44_transmitter.md R182, R191). -/
theorem transmitRepetitions_emits {cw : Codeword} (hcw : SymbolsValid cw) (n : Nat) :
    ∀ (rep : Nat) (s : State),
      Emits s (n * (4 * cwLen + 2)) (transmissionSegments s.config.pUs cw n) (transmitRepetitions cw rep n s) := by
  induction n with
  | zero => intro _ s; rw [Nat.zero_mul]; exact emits_nothing s
  | succ n ih =>
    intro rep s
    rw [transmitRepetitions_succ, Nat.succ_mul, Nat.add_comm]
    exact (transmitRepetition_emits hcw rep s).andThen fun u hu => hu ▸ ih (rep + 1) u

theorem validSymbols_le (cw : Codeword) (n : Nat) : ∀ pos, validSymbols cw pos n ≤ n := by
  induction n with
  | zero => exact fun _ => le_rfl
  | succ n ih =>
    intro pos
    have := ih (pos + 1)
    rw [validSymbols]
    split <;> omega

/-- Among as many positions as there are valid symbols, none has the reserved symbol. -/
theorem cwSymbol_ne_reserved_of_validSymbols {cw : Codeword} {n : Nat} :
    ∀ {pos : Nat}, validSymbols cw pos n = n → ∀ j, pos ≤ j → j < pos + n → cwSymbol cw j ≠ 3#2 := by
  induction n with
  | zero => intro pos _ j _ _; omega
  | succ n ih =>
    intro pos h j hle hlt
    have hrest := validSymbols_le cw n (pos + 1)
    rw [validSymbols] at h
    split at h
    · omega
    · rcases Nat.eq_or_lt_of_le hle with rfl | hgt
      · assumption
      · exact ih (pos := pos + 1) (by omega) j hgt (by omega)

/-- FINISH answers the owner `Ok` and runs RESUME_WAITING (44_transmitter.md R186). -/
theorem finish_of_owner {s : State} {r : Requester} (ho : s.owner = some r) :
    finish s = resumeWaiting (respond r .ok (release s)) := by
  rw [finish, ho]

/-- Settles O50: the steps follow the pseudocode to FINISH, and the pseudocode emits the repetitions. -/
theorem faultFreeTransmissionWaveform : Obligations.FaultFreeTransmissionWaveform := by
  intro s cw r hc ht hq hcw hvalid ho he hd t
  have hsym : SymbolsValid cw := fun j hj =>
    cwSymbol_ne_reserved_of_validSymbols hvalid j (Nat.zero_le j) ((Nat.zero_add 12).symm ▸ hj)
  have hfollows := transmit_follows hc ht hcw he hq hsym
  obtain ⟨x, hx⟩ := transmitRepetitions_emits hsym s.config.repeatCount 0 s hd
  rw [hx] at hfollows
  obtain ⟨-, hsteps⟩ := hfollows
  have hdrives : s.config.repeatCount * (4 * cwLen + 2) ≠ 0 :=
    Nat.mul_ne_zero (Nat.pos_iff_ne_zero.mp (repeatCount_pos hc)) (by decide)
  have hend : respond r .ok (release (emitted (s.config.repeatCount * (4 * cwLen + 2))
      (transmissionSegments s.config.pUs cw s.config.repeatCount) x s)) = t := by
    simp only [respond, release, emitted, if_neg hdrives]
    rfl
  have hreach : stepOn^[s.config.repeatCount * (4 * 12 + 2)] (.next s) = resumeWaiting t := by
    rw [hsteps, finish_of_owner (s := emitted _ _ x s) ho, hend]
  have hrun := (core_run_eq _ s).trans hreach
  exact ⟨hrun, fun hw => hrun.trans (resumeWaiting_empty hw)⟩

/-! ### How long a transmission is, and how it alternates -/

/-- The units of time of a pair (30_encoding.md R77). -/
def Pair.units (p : Pair) : Nat := p.high.toNat + p.low.toNat

theorem totalUs_append (xs ys : List Segment) : totalUs (xs ++ ys) = totalUs xs + totalUs ys := by
  induction xs with
  | nil => simp [totalUs]
  | cons x xs ih => simp [totalUs, ih, Nat.add_assoc]

theorem totalUs_pairsSegments (pUs : Nat) (ps : List Pair) :
    totalUs (pairsSegments pUs ps) = (ps.map Pair.units).sum * pUs := by
  induction ps with
  | nil => simp [pairsSegments, totalUs]
  | cons p ps ih =>
    rw [pairsSegments] at ih
    rw [pairsSegments, List.flatMap_cons, totalUs_append, ih]
    simp [pairSegments, totalUs, halfUs, Pair.units, Nat.add_mul]

theorem length_pairsSegments (pUs : Nat) (ps : List Pair) : (pairsSegments pUs ps).length = 2 * ps.length := by
  induction ps with
  | nil => rfl
  | cons p ps ih =>
    rw [pairsSegments] at ih
    rw [pairsSegments, List.flatMap_cons, List.length_append, ih, List.length_cons]
    simp [pairSegments, Nat.mul_add, Nat.add_comm]

/-- Each valid symbol lasts 8 units and has four segments; the reserved one has none (42_bit_encoder.md R141 to R145). -/
theorem symbolsSegments_measure (pUs : Nat) (cw : Codeword) (n : Nat) :
    ∀ pos, totalUs (symbolsSegments pUs cw pos n) = 8 * validSymbols cw pos n * pUs ∧
      (symbolsSegments pUs cw pos n).length = 4 * validSymbols cw pos n := by
  have hsymbol : ∀ x : SymCode, ((symbolPairs x).map Pair.units).sum = 8 * (if x = 3#2 then 0 else 1) ∧
      (symbolPairs x).length = 2 * (if x = 3#2 then 0 else 1) := by decide
  induction n with
  | zero => intro pos; exact ⟨by simp [symbolsSegments, validSymbols, totalUs], rfl⟩
  | succ n ih =>
    intro pos
    obtain ⟨hunits, hlen⟩ := hsymbol (cwSymbol cw pos)
    obtain ⟨htotal, hlength⟩ := ih (pos + 1)
    rw [symbolsSegments, totalUs_append, List.length_append, totalUs_pairsSegments, length_pairsSegments, hunits, hlen,
      htotal, hlength, validSymbols]
    exact ⟨by ring, by ring⟩

/-- Settles O53: symbols and sync add up, and repetitions multiply. -/
theorem transmissionLength : Obligations.TransmissionLength := by
  intro pUs cw n
  obtain ⟨htotal, hlength⟩ := symbolsSegments_measure pUs cw cwLen 0
  have hrep : totalUs (repetitionSegments pUs cw) = (8 * n + 32) * pUs := by
    rw [repetitionSegments, totalUs_append, htotal, totalUs_pairsSegments, Nat.add_mul]
    rfl
  refine ⟨hrep, ?_, fun k => ?_⟩
  · rw [repetitionSegments, List.length_append, hlength, length_pairsSegments]
    rfl
  · induction k with
    | zero => simp [transmissionSegments, totalUs]
    | succ k ih =>
      rw [transmissionSegments, totalUs_append, hrep, ih]
      ring

/-- The segments of a transmission are those of a list of pairs that ends with sync. -/
theorem transmissionSegments_eq_pairsSegments (pUs : Nat) (cw : Codeword) (n : Nat) :
    ∃ ps, transmissionSegments pUs cw (n + 1) = pairsSegments pUs (ps ++ syncPairs) := by
  have happend (ps ps' : List Pair) : pairsSegments pUs (ps ++ ps') = pairsSegments pUs ps ++ pairsSegments pUs ps' :=
    List.flatMap_append
  have hsymbols (k : Nat) : ∀ pos, ∃ ps, symbolsSegments pUs cw pos k = pairsSegments pUs ps := by
    induction k with
    | zero => exact fun _ => ⟨[], rfl⟩
    | succ k ih =>
      intro pos
      obtain ⟨ps, hps⟩ := ih (pos + 1)
      exact ⟨symbolPairs (cwSymbol cw pos) ++ ps, by rw [symbolsSegments, hps, happend]⟩
  obtain ⟨ps, hps⟩ := hsymbols cwLen 0
  have hrep : repetitionSegments pUs cw = pairsSegments pUs (ps ++ syncPairs) := by rw [repetitionSegments, hps, happend]
  induction n with
  | zero => exact ⟨ps, by rw [transmissionSegments, transmissionSegments, hrep, List.append_nil]⟩
  | succ n ih =>
    obtain ⟨ps', hps'⟩ := ih
    refine ⟨ps ++ syncPairs ++ ps', ?_⟩
    rw [transmissionSegments, hps', hrep, ← happend, List.append_assoc _ ps']

/-- Pairs alternate: each begins high and ends low (42_bit_encoder.md R146). -/
theorem alternates_pairsSegments (pUs : Nat) : ∀ ps : List Pair, alternates (pairsSegments pUs ps) = true
  | [] => rfl
  | [_] => rfl
  | _ :: p :: ps => alternates_pairsSegments pUs (p :: ps)

/-- Settles O54: all of it is read off the pairs, the last of which is sync. -/
theorem segmentsAlternate : Obligations.SegmentsAlternate := by
  intro pUs cw n hn
  obtain ⟨m, rfl⟩ : ∃ m, n = m + 1 := ⟨n - 1, by omega⟩
  obtain ⟨ps, hps⟩ := transmissionSegments_eq_pairsSegments pUs cw m
  rw [hps]
  refine ⟨alternates_pairsSegments pUs _, ?_, ?_⟩
  · cases ps with
    | nil => exact ⟨_, _, rfl⟩
    | cons p ps => exact ⟨_, _, rfl⟩
  · rw [pairsSegments, List.flatMap_append, List.getLast?_append]
    rfl

end Sys2Proof.Machine
end

section
/-! Commands during a transmission and between two of them: held commands, and RESUME_WAITING (44_transmitter.md R184 to
R188). -/

namespace Sys2Proof.Machine

/-- Settles O16: a valid command has a profile and passes its check. -/
theorem busyCommandHeldUnderBlock : Obligations.BusyCommandHeldUnderBlock := by
  intro cmd s hvalid ht hpolicy
  obtain ⟨k, hk, hv⟩ := commandValid_iff.mp hvalid
  refine ⟨waitInsert (s.submitter, cmd) s.wait, ?_, fun _ => mem_waitInsert⟩
  simp only [exec_command s.config cmd s rfl, hk, submitProfile, hv, if_true, ht, hpolicy]

/-- What a command submitted during a transmission can do: it is answered, neither `Ok` nor `HardwareFault`, or it is held
(44_transmitter.md R187, R188). -/
theorem exec_command_transmitting {cmd : Command} {s t : State} (ht : s.txState = .transmitting)
    (h : exec (decode s.config (.cmd cmd)) s = .next t) :
    (∃ x, x ≠ .ok ∧ x ≠ .hardwareFault ∧ t = respond s.submitter x s) ∨
      t = { s with wait := waitInsert (s.submitter, cmd) s.wait } := by
  have hidle : s.txState ≠ .idle := by rw [ht]; decide
  rw [exec_command s.config cmd s rfl] at h
  split at h
  · rcases submitProfile_next h with
      ⟨_, rfl⟩ | ⟨_, ⟨_, _, rfl⟩ | ⟨_, _, rfl⟩ | ⟨hi, _⟩ | ⟨hi, _⟩⟩
    · exact .inl ⟨.outOfRange, by decide, by decide, rfl⟩
    · exact .inl ⟨.resourceUnavailable, by decide, by decide, rfl⟩
    · exact .inr rfl
    · exact absurd hi hidle
    · exact absurd hi hidle
  · cases h
    exact .inl ⟨.unknownEncoder, by decide, by decide, rfl⟩

/-- A step whose next move is a submit that answers a next state runs the command. -/
theorem step_submit_next {s t : State} {r : Requester} {cmd : Command} {es : List Event}
    (he : s.events = .submit r cmd :: es) (h : step s = .next t) :
    exec (decode s.config (.cmd cmd)) (present r cmd { s with events := es }) = .next t := by
  rw [step_of_submit he, submit] at h
  split at h
  · exact h
  · cases h

/-- The same for a step during a transmission. -/
theorem step_submit_transmitting {s t : State} {r : Requester} {cmd : Command} {es : List Event}
    (ht : s.txState = .transmitting) (he : s.events = .submit r cmd :: es) (h : step s = .next t) :
    (∃ x, x ≠ .ok ∧ x ≠ .hardwareFault ∧ t = respond r x (present r cmd { s with events := es })) ∨
      t = { present r cmd { s with events := es } with wait := waitInsert (r, cmd) s.wait } :=
  exec_command_transmitting (s := present r cmd { s with events := es }) ht (step_submit_next he h)

/-- Settles O43: neither a response nor an insertion into `WAIT` writes a register of the transmission. -/
theorem submitNeverTouchesTransmission : Obligations.SubmitNeverTouchesTransmission := by
  intro s t r cmd es ht he h
  rcases step_submit_transmitting ht he h with ⟨x, hok, hfault, rfl⟩ | rfl
  · exact ⟨rfl, rfl, rfl, rfl, rfl, rfl, rfl, rfl, .inl ⟨rfl, x, hok, hfault, rfl⟩⟩
  · exact ⟨rfl, rfl, rfl, rfl, rfl, rfl, rfl, rfl, .inr ⟨rfl, fun _ => mem_waitInsert⟩⟩

/-- A rising list has no element twice, so `WAIT` is a set (10_state.md R28). -/
theorem waitSorted_nodup : ∀ {w : List (Requester × Command)}, waitSorted w = true → w.Nodup
  | [], _ => List.nodup_nil
  | _ :: _, h =>
    List.nodup_cons.mpr ⟨fun hmem => (waitSorted_head h _ hmem).false, waitSorted_nodup (waitSorted_tail h)⟩

/-- Settles O17: one round of RESUME_WAITING, and all rounds while the grant stays away. -/
theorem heldCommandResumes : Obligations.HeldCommandResumes := by
  intro s hc hvalid hsorted
  constructor
  · intro hw
    obtain ⟨i, e, cs, c, hi, hchoice, hyes, hno⟩ := resumeWaiting_round hw
    obtain ⟨hlt, he⟩ := List.getElem?_eq_some_iff.mp hi
    have hmem : e ∈ s.wait := he ▸ List.getElem_mem hlt
    have hnodup := waitSorted_nodup hsorted
    have herase : s.wait.eraseIdx i = s.wait.erase e := he ▸ (hnodup.erase_getElem i hlt).symm
    refine ⟨e, cs, c, hmem, fun j js hj hjlt => hchoice j js hj hjlt ▸ hi, fun hg => ?_, fun hg => ?_⟩
    · obtain ⟨k, hk, hv⟩ := commandValid_iff.mp (hvalid e hmem)
      obtain ⟨cw, hb⟩ := build_isSome hc hv
      have haccept : resumeWaiting s = .next (accepted e.1 e.2 cw
          { s with wait := s.wait.eraseIdx i, choices := cs, choiceCount := c, platform := s.platform.look }) := by
        rw [hyes hg, hk]
        exact accept_next.mpr ⟨cw, hb, rfl⟩
      refine ⟨_, haccept, rfl, rfl, rfl, rfl, rfl, rfl, rfl, fun x => ?_⟩
      change x ∈ s.wait.eraseIdx i ↔ _
      rw [herase, hnodup.mem_erase_iff, and_comm]
    · rw [hno hg, herase]
      rfl
  · intro css hg hgrants
    obtain ⟨order, cs, c, hperm, hrun⟩ := resumeWaiting_ungranted hg hgrants
    exact ⟨order, _, hperm, hrun, rfl, rfl, rfl, rfl, rfl⟩

end Sys2Proof.Machine
end

section
/-! The sequencer's moves: the end of a transmission, what its rows leave unchanged, the changes of `TX_STATE`, and the
drives that are left (44_transmitter.md R180 to R193). -/

namespace Sys2Proof.Machine

/-- Settles O31: the one pair of SYNC ends the last position, and FINISH follows. -/
theorem finishAnswersOk : Obligations.FinishAnswersOk := by
  intro rep r s hq hrep ho hd t
  have hlast : cwLen ≤ (⟨rep, 12, 0, .low⟩ : SeqPos).pos := Nat.le_refl 12
  have hrun : exec .sync s = resumeWaiting t :=
    calc exec .sync s
      _ = nextHalf true ⟨rep, 12, 0, .low⟩ (afterHalf .low ⟨1, 31⟩ s) := exec_half rfl rfl hq hd
      _ = nextPosition ⟨rep, 12, 0, .low⟩ (afterHalf .low ⟨1, 31⟩ s) := nextHalf_low true rfl _
      _ = finish (afterHalf .low ⟨1, 31⟩ s) := nextPosition_last hlast hrep
      _ = resumeWaiting (respond r .ok (release (afterHalf .low ⟨1, 31⟩ s))) :=
        finish_of_owner (s := afterHalf .low ⟨1, 31⟩ s) ho
      _ = resumeWaiting t := by
        simp only [respond, release, afterHalf_eq_draw, draw_resp]
        rfl
  exact ⟨hrun, fun hw => hrun.trans (resumeWaiting_empty ((draw_wait s).trans hw))⟩

/-- RESUME_WAITING touches neither the command input nor the schedule, and holds nothing new. -/
theorem resumeWaiting_frame {s t : State} (h : resumeWaiting s = .next t) :
    t.submitter = s.submitter ∧ t.events = s.events ∧ t.wait ⊆ s.wait := by
  rcases resumeWaiting_next h with ⟨_, _, _, _, _, rfl⟩ | ⟨rejected, w, e, _, _, _, _, _, hperm, _, _, _, _, rfl⟩
  · exact ⟨rfl, rfl, List.nil_subset _⟩
  · refine ⟨rfl, rfl, fun x hx => hperm.subset ?_⟩
    exact List.mem_cons_of_mem e (List.mem_append_right rejected hx)

/-- The transmission of `s` has ended with a response to its owner, `Ok` or `HardwareFault`, before any other response. -/
def OwnerAnswered (s t : State) : Prop :=
  ∃ r x xs, s.owner = some r ∧ (x = .ok ∨ x = .hardwareFault) ∧ t.resp = s.resp ++ (r, x) :: xs

/-- RESUME_WAITING answers after the owner has been answered. -/
theorem ownerAnswered_of_resumed {s u t : State} {r : Requester} {x : Result} (ho : s.owner = some r)
    (hx : x = .ok ∨ x = .hardwareFault) (hu : u.resp = s.resp ++ [(r, x)]) (h : resumeWaiting u = .next t) :
    OwnerAnswered s t := by
  obtain ⟨xs, hxs⟩ := (resumeWaiting_respGrows h).resp
  exact ⟨r, x, xs, ho, hx, by rw [← hxs, hu, List.append_assoc, List.singleton_append]⟩

theorem Ended.ownerAnswered {s u t : State} {r : Requester} {x : Result} (h : Ended s u r x)
    (hresume : resumeWaiting u = .next t) : OwnerAnswered s t :=
  ownerAnswered_of_resumed h.owner h.result h.resp hresume

/-- Settles O48: the transmission goes on, or it has ended and RESUME_WAITING has run. -/
theorem sequencerFrame : Obligations.SequencerFrame := by
  intro i s t hi h
  have hrow : isSequencerRow i = true := by obtain rfl | rfl | rfl | rfl | rfl := hi <;> rfl
  rcases exec_sequencerRow_next hrow h with hgo | ⟨u, r, x, hend, hresume⟩
  · exact ⟨hgo.config, fun _ => by rw [hgo.config], hgo.submitter, hgo.subs, hgo.events, fun _ he => hgo.wait ▸ he,
      .inl ⟨hgo.txState, hgo.req, hgo.cw, hgo.owner, hgo.wait, hgo.resp, hgo.choices, hgo.choiceCount, hgo.platform⟩⟩
  · have hconfig : t.config = s.config := (resumeWaiting_config hresume).trans hend.config
    obtain ⟨hsubmitter, hevents, hwait⟩ := resumeWaiting_frame hresume
    exact ⟨hconfig, fun _ => by rw [hconfig], hsubmitter.trans hend.submitter,
      (resumeWaiting_respGrows hresume).subs.trans hend.subs, hevents.trans hend.events, fun e he => hend.wait ▸ hwait he,
      .inr (hend.ownerAnswered hresume)⟩

/-! ### The changes of `TX_STATE` -/

/-- The sequencer begins no transmission, and ends one only by answering its owner. -/
theorem sequencerMove_txState {s t : State} (h : sequencerMove s = .next t) :
    t.txState = s.txState ∨ (s.txState = .transmitting ∧ OwnerAnswered s t) := by
  rcases sequencerMove_next h with ⟨_, rfl⟩ | ⟨ht, i, hi, hx⟩
  · exact .inl rfl
  · rcases exec_sequencerRow_next hi hx with hgo | ⟨u, r, x, hend, hresume⟩
    · exact .inl hgo.txState
    · exact .inr ⟨ht, hend.ownerAnswered hresume⟩

/-- A command that makes an idle core transmit is valid and sampled the grant, and its submitter becomes the owner. -/
theorem exec_command_accepts {cmd : Command} {s t : State} (hi : s.txState = .idle)
    (h : exec (decode s.config (.cmd cmd)) s = .next t) (ht : t.txState = .transmitting) :
    ∃ k, lookup s.config (cmdKind cmd) = some k ∧
      validate k (cmdGroup cmd) (cmdSocket cmd) (cmdData cmd) = true ∧ s.platform.look.grant = true ∧
      t.owner = some s.submitter := by
  have hne : s.txState ≠ .transmitting := by rw [hi]; decide
  rw [exec_command s.config cmd s rfl] at h
  split at h
  · rename_i k hk
    rcases submitProfile_next h with
      ⟨_, rfl⟩ | ⟨hv, ⟨hb, _⟩ | ⟨hb, _⟩ | ⟨_, _, rfl⟩ | ⟨_, hg, ha⟩⟩
    · exact absurd ht hne
    · exact absurd hb hne
    · exact absurd hb hne
    · exact absurd ht hne
    · obtain ⟨cw, _, rfl⟩ := accept_next.mp ha
      exact ⟨k, hk, hv, hg, rfl⟩
  · cases h
    exact absurd ht hne

/-- Settles O42, by whose move it is: only a command starts a transmission, and only the sequencer and a reset end one. -/
theorem txStateTransitions : Obligations.TxStateTransitions := by
  intro s t h
  have hsequencer : ∀ es, sequencerMove { s with events := es } = .next t →
      t.txState = s.txState ∨ (s.txState = .transmitting ∧ OwnerAnswered s t) :=
    fun es hm => sequencerMove_txState (s := { s with events := es }) hm
  refine ⟨fun hi ht => ?_, fun ht hi => ?_⟩
  · have hno : ¬ (t.txState = s.txState ∨ (s.txState = .transmitting ∧ OwnerAnswered s t)) := by simp [hi, ht]
    rcases step_next h with ⟨_, hm⟩ | ⟨es, ⟨_, hm⟩ | ⟨r, cmd, he, _, hx⟩ | ⟨_, rfl⟩ | ⟨_, hr⟩⟩
    · exact absurd (hsequencer s.events hm) hno
    · exact absurd (hsequencer es hm) hno
    · obtain ⟨k, haccepted⟩ := exec_command_accepts (s := present r cmd { s with events := es }) hi hx ht
      exact ⟨r, cmd, es, k, he, haccepted⟩
    · cases ht
    · obtain ⟨u, rfl, _⟩ := resetInHold_next hr
      cases ht
  · have hchanged : t.txState ≠ s.txState := by rw [hi, ht]; decide
    rcases step_next h with ⟨_, hm⟩ | ⟨es, ⟨_, hm⟩ | ⟨r, cmd, he, _, _⟩ | ⟨he, _⟩ | ⟨he, _⟩⟩
    · exact .inr ((hsequencer s.events hm).resolve_left hchanged).2
    · exact .inr ((hsequencer es hm).resolve_left hchanged).2
    · rcases step_submit_transmitting ht he h with ⟨x, _, _, rfl⟩ | rfl
      · exact absurd rfl hchanged
      · exact absurd rfl hchanged
    · exact .inl (by rw [resetNext, he]; rfl)
    · exact .inl (by rw [resetNext, he]; rfl)

/-! ### The drives that are left -/

/-- The halves a transmission has behind it at a position: a repetition has 50 of them (44_transmitter.md R193). -/
def halvesDone (q : SeqPos) : Nat := q.rep * 50 + 4 * q.pos + 2 * q.pair + if q.phase = .low then 1 else 0

theorem halvesDone_high {q : SeqPos} (h : q.phase = .high) : halvesDone q = q.rep * 50 + 4 * q.pos + 2 * q.pair := by
  simp [halvesDone, h]

theorem halvesDone_low {q : SeqPos} (h : q.phase = .low) : halvesDone q = q.rep * 50 + 4 * q.pos + 2 * q.pair + 1 := by
  simp [halvesDone, h]

theorem drivesLeft_eq {s : State} {q : SeqPos} (ht : s.txState = .transmitting) (hq : s.seq = some q) :
    drivesLeft s = s.config.repeatCount * 50 - halvesDone q := by
  simp only [drivesLeft, ht, hq, halvesDone, cwLen]
  cases q.phase <;> simp <;> omega

theorem halvesDone_lt {n : Nat} {q : SeqPos} (h : seqInRange n q = true) : halvesDone q < n * 50 := by
  obtain ⟨hrep, hpos, hpair, hend⟩ := seqInRange_iff.mp h
  have hlen : cwLen = 12 := rfl
  rw [halvesDone]
  split <;> omega

/-- A position one half further on has one drive fewer left. -/
theorem drivesLeft_succ {s t : State} {q q' : SeqPos} (h : CoreInv s) (ht : s.txState = .transmitting)
    (hq : s.seq = some q) (hc : t.config = s.config) (ht' : t.txState = .transmitting) (hq' : t.seq = some q')
    (hdone : halvesDone q' = halvesDone q + 1) : drivesLeft t + 1 = drivesLeft s := by
  have hlt := halvesDone_lt (h.seqRange q hq)
  rw [drivesLeft_eq ht hq, drivesLeft_eq ht' hq', hc, hdone]
  omega

/-- The sequencer's move uses up one drive, without a response, or answers the owner. -/
theorem sequencerMove_drives {s t : State} (h : CoreInv s) (ht : s.txState = .transmitting)
    (hm : sequencerMove s = .next t) : (drivesLeft t + 1 = drivesLeft s ∧ t.resp = s.resp) ∨ OwnerAnswered s t := by
  obtain ⟨_, cw, q, _, _, hcw, hq, _⟩ := h.transmitting_registers ht
  obtain ⟨-, hpos, hpair, hend⟩ := seqInRange_iff.mp (h.seqRange q hq)
  have hcwLen : cwLen = 12 := rfl
  have hlen := codePairs_codeAt_length (q := q) (h.symbolsValid ht hcw q.pos)
  rw [sequencerMove_transmitting ht hq hcw, exec_codeAt] at hm
  obtain ⟨q', hq', hcases⟩ := playPairs_next hm
  obtain rfl : q = q' := Option.some.inj (hq.symm.trans hq')
  rcases hcases with ⟨hnone, _⟩ | ⟨p, _, hhalf⟩
  · rw [List.getElem?_eq_none_iff, hlen] at hnone
    split at hnone <;> omega
  · rw [hlen] at hhalf
    rcases playHalf_next hhalf with ⟨_, hf⟩ | ⟨_, hphase, rfl⟩ | ⟨_, hphase, _, rfl⟩ | ⟨_, hphase, hlast, hn⟩
    · obtain ⟨u, r, hended, hresume⟩ := faultExit_ended (s := s) hf (by simp)
      exact .inr (hended.ownerAnswered hresume)
    · refine .inl ⟨drivesLeft_succ h ht hq (by simp) (by simpa using ht) rfl ?_, by simp⟩
      rw [halvesDone_low rfl, halvesDone_high hphase]
    · refine .inl ⟨drivesLeft_succ h ht hq (by simp) (by simpa using ht) rfl ?_, by simp⟩
      rw [halvesDone_high rfl, halvesDone_low hphase]
      dsimp only
      omega
    · have hpairs : (if q.pos < cwLen then 2 else 1) ≤ q.pair + 1 := of_decide_eq_true hlast
      rcases nextPosition_next hn with ⟨hsymbol, rfl⟩ | ⟨hsync, _, rfl⟩ | ⟨_, _, hf⟩
      · rw [if_pos hsymbol] at hpairs
        refine .inl ⟨drivesLeft_succ h ht hq (by simp) (by simpa using ht) rfl ?_, by simp⟩
        rw [halvesDone_high rfl, halvesDone_low hphase]
        dsimp only
        omega
      · refine .inl ⟨drivesLeft_succ h ht hq (by simp) (by simpa using ht) rfl ?_, by simp⟩
        rw [halvesDone_high rfl, halvesDone_low hphase]
        dsimp only
        omega
      · obtain ⟨r, ho, hresume⟩ := finish_next hf
        exact .inr (ownerAnswered_of_resumed (by simpa using ho) (.inl rfl) (by simp) hresume)

/-- Settles O51: the drives left are counted from `SEQ`, which a submit does not write. -/
theorem transmissionEnds : Obligations.TransmissionEnds := by
  refine ⟨fun s h ht => ?_, fun s t h ht he hstep => ?_, fun s t e es ht he hother hreset hstep => ?_⟩
  · obtain ⟨_, _, q, _, _, _, hq, _⟩ := h.transmitting_registers ht
    have hlt := halvesDone_lt (h.seqRange q hq)
    rw [drivesLeft_eq ht hq]
    omega
  · rcases he with he | ⟨es, he⟩
    · exact sequencerMove_drives h ht ((step_of_empty he).symm.trans hstep)
    · have hm : sequencerMove { s with events := es } = .next t := (step_of_sequencer he).symm.trans hstep
      exact sequencerMove_drives (s := { s with events := es }) (h.untouched ..) ht hm
  · cases e with
    | submit r cmd =>
      rcases step_submit_transmitting ht he hstep with ⟨x, _, _, rfl⟩ | rfl
      · exact ⟨ht, rfl⟩
      · exact ⟨ht, rfl⟩
    | sequencer => exact absurd rfl hother
    | reset => cases hreset
    | resetInHold => cases hreset

end Sys2Proof.Machine
end

section
/-! The errors (60_exceptions.md R220 to R225): which results a command can be answered, FAULT_EXIT, and which executions
answer `HardwareFault`. -/

namespace Sys2Proof.Machine

/-- Settles O8: with an empty schedule the sequencer moves, and while `Idle` it does nothing. -/
theorem idleCoreWaits : Obligations.IdleCoreWaits :=
  fun _ ht he => (step_of_empty he).trans (sequencerMove_idle ht)

/-! ### The result of a command -/

theorem validate_eq_false_iff {k : Kind} {g s d : Byte} :
    validate k g s d = false ↔
      tableLen k .groups ≤ g.toNat ∨ tableLen k .sockets ≤ s.toNat ∨ tableLen k .dataCodes ≤ d.toNat := by
  rw [← Bool.not_eq_true, validate_iff]
  omega

/-- A command with a profile executes as SUBMIT of it. -/
theorem exec_command_of_profile {cmd : Command} {s : State} {k : Kind} (hk : lookup s.config (cmdKind cmd) = some k) :
    exec (decode s.config (.cmd cmd)) s = submitProfile k cmd s := by
  rw [exec_command s.config cmd s rfl, hk]

/-- An index out of range is answered before anything else is looked at. -/
theorem submitProfile_of_invalid {k : Kind} {cmd : Command} {s : State}
    (hv : validate k (cmdGroup cmd) (cmdSocket cmd) (cmdData cmd) = false) :
    submitProfile k cmd s = .next (respond s.submitter .outOfRange s) := by
  rw [submitProfile, if_neg (Bool.eq_false_iff.mp hv), raise]

/-- The responses of SUBMIT with a profile: none, when the command is held or accepted; `OutOfRange` for an index out of
range; `ResourceUnavailable` for indices in range. -/
theorem submitProfile_resp {k : Kind} {cmd : Command} {s t : State} (h : submitProfile k cmd s = .next t) :
    t.resp = s.resp ∨
    (validate k (cmdGroup cmd) (cmdSocket cmd) (cmdData cmd) = false ∧
      t.resp = s.resp ++ [(s.submitter, .outOfRange)]) ∨
    t.resp = s.resp ++ [(s.submitter, .resourceUnavailable)] := by
  rcases submitProfile_next h with
    ⟨hv, rfl⟩ | ⟨_, ⟨_, _, rfl⟩ | ⟨_, _, rfl⟩ | ⟨_, _, rfl⟩ | ⟨_, _, ha⟩⟩
  · exact .inr (.inl ⟨hv, rfl⟩)
  · exact .inr (.inr rfl)
  · exact .inl rfl
  · exact .inr (.inr rfl)
  · obtain ⟨cw, _, rfl⟩ := accept_next.mp ha
    exact .inl rfl

/-- The one response of SUBMIT with a profile is `OutOfRange`, for an index out of range, or `ResourceUnavailable`. -/
theorem submitProfile_result {k : Kind} {cmd : Command} {s : State} {x : Result}
    (h : submitProfile k cmd s = .next (respond s.submitter x s)) :
    (x = .outOfRange ∧ validate k (cmdGroup cmd) (cmdSocket cmd) (cmdData cmd) = false) ∨
      x = .resourceUnavailable := by
  rcases submitProfile_resp h with hr | ⟨hv, hr⟩ | hr
  · simp at hr
  · exact .inl ⟨by simpa using hr, hv⟩
  · exact .inr (by simpa using hr)

/-- Settles O11: a command with a profile is answered one of two other results. -/
theorem unknownKindAnswered : Obligations.UnknownKindAnswered := by
  refine ⟨fun _ _ _ _ _ => rfl, fun cmd s => ?_⟩
  rw [← lookup_eq_none_iff]
  refine ⟨fun h => ?_, fun h => exec_command_of_unknown h⟩
  cases hk : lookup s.config (cmdKind cmd) with
  | none => rfl
  | some k =>
    rw [exec_command_of_profile hk] at h
    rcases submitProfile_result h with ⟨hx, _⟩ | hx <;> cases hx

/-- SUBMIT with a profile answers `OutOfRange` exactly for an index out of range. -/
theorem submitProfile_outOfRange_iff (k : Kind) (kind g so d : Byte) (s : State) :
    submitProfile k (packCommand kind g so d) s = .next (respond s.submitter .outOfRange s) ↔
      tableLen k .groups ≤ g.toNat ∨ tableLen k .sockets ≤ so.toNat ∨ tableLen k .dataCodes ≤ d.toNat := by
  rw [← validate_eq_false_iff]
  constructor
  · intro h
    rcases submitProfile_result h with ⟨_, hv⟩ | hx
    · simpa using hv
    · cases hx
  · intro hv
    exact submitProfile_of_invalid (by simpa using hv)

/-- Settles O13: both rows are SUBMIT of their profile. -/
theorem outOfRangeAnswered : Obligations.OutOfRangeAnswered := fun g so d s =>
  ⟨submitProfile_outOfRange_iff .pt2260 s.config.kindPT2260 g so d s,
    submitProfile_outOfRange_iff .pt2262 s.config.kindPT2262 g so d s⟩

/-! ### Executions that answer no `HardwareFault` -/

/-- Every `HardwareFault` of `t` is one of `s`. -/
def AddsNoFault (s t : State) : Prop :=
  ∀ r, (r, Result.hardwareFault) ∈ t.resp → (r, Result.hardwareFault) ∈ s.resp

theorem addsNoFault_of_resp {s t : State} (h : t.resp = s.resp) : AddsNoFault s t :=
  fun _ hr => h ▸ hr

theorem addsNoFault_of_answer {s t : State} {r : Requester} {x : Result} (hx : x ≠ .hardwareFault)
    (h : t.resp = s.resp ++ [(r, x)]) : AddsNoFault s t := by
  intro r' hr
  simpa [h, hx.symm] using hr

theorem AddsNoFault.trans {s u t : State} (h : AddsNoFault s u) (h' : AddsNoFault u t) : AddsNoFault s t :=
  fun r hr => h r (h' r hr)

theorem submitProfile_addsNoFault {k : Kind} {cmd : Command} {s t : State} (h : submitProfile k cmd s = .next t) :
    AddsNoFault s t := by
  rcases submitProfile_resp h with hr | ⟨_, hr⟩ | hr
  · exact addsNoFault_of_resp hr
  · exact addsNoFault_of_answer (by decide) hr
  · exact addsNoFault_of_answer (by decide) hr

theorem exec_command_addsNoFault {cmd : Command} {s t : State} (h : exec (decode s.config (.cmd cmd)) s = .next t) :
    AddsNoFault s t := by
  cases hk : lookup s.config (cmdKind cmd) with
  | none =>
    cases (exec_command_of_unknown hk).symm.trans h
    exact addsNoFault_of_answer (by decide) rfl
  | some k => exact submitProfile_addsNoFault ((exec_command_of_profile hk).symm.trans h)

/-- Settles O14, in the order in which SUBMIT checks. -/
theorem errorPriority : Obligations.ErrorPriority := by
  intro cmd s
  refine ⟨exec_command_of_unknown, fun k hk => ?_, fun _ h => exec_command_addsNoFault h⟩
  rw [exec_command_of_profile hk]
  refine ⟨submitProfile_of_invalid, fun hv => ⟨fun ht hpolicy => ?_, fun ht hg => ?_⟩⟩
  · simp only [submitProfile, hv, if_true, ht, hpolicy, raise]
  · rw [submitProfile, if_pos hv, ht]
    simp only [hg, Bool.false_eq_true, if_false, raise]
    rfl

/-! ### A failed drive -/

theorem faultExit_of_owner {s : State} {r : Requester} (ho : s.owner = some r) :
    faultExit s = resumeWaiting (respond r .hardwareFault (release (drive .low s).2)) := by
  rw [faultExit, ho]

/-- The line that a first drive leaves does not matter to a second one. -/
theorem drive_drive (l l' : Level) (s : State) :
    (drive l' (drive l s).2).2 = { (draw (draw s).2).2 with line := lineAfter l' (draw (draw s).2).1 } := by
  obtain ⟨hresult, hplatform⟩ := draw_congr (s := (drive l s).2) (s' := (draw s).2) rfl rfl
  rw [drive_state l', hresult, hplatform, drive_state l, draw_state (draw s).2, draw_state s]

/-- The end of a transmission whose owner is `r` and whose next drive fails, before RESUME_WAITING. -/
def faulted (r : Requester) (s : State) : State :=
  respond r .hardwareFault (release { (draw (draw s).2).2 with line := lineAfter .low (draw (draw s).2).1 })

/-- One execution of a row at a half whose drive fails. -/
theorem exec_half_of_fail {i : Instr} (hi : isSequencerRow i = true) {q : SeqPos} {r : Requester} {s : State}
    (hq : s.seq = some q) (hpair : q.pair < (instrPairs i).length) (ho : s.owner = some r) (hd : (draw s).1 = .fail) :
    exec i s = resumeWaiting (faulted r s) := by
  have hp : (instrPairs i)[q.pair]? = some (instrPairs i)[q.pair] := List.getElem?_eq_getElem hpair
  have howner : (drive q.phase s).2.owner = some r := (drive_owner ..).trans ho
  calc exec i s
    _ = playPairs (instrPairs i) s := exec_sequencerRow hi s
    _ = playHalf (instrPairs i)[q.pair] (decide ((instrPairs i).length ≤ q.pair + 1)) q s := by
      simp only [playPairs, hq, hp]
    _ = faultExit (drive q.phase s).2 := playHalf_of_fail hd ..
    _ = resumeWaiting (faulted r s) := by rw [faultExit_of_owner howner, drive_drive, faulted]

/-! ### A drive that succeeds -/

theorem resumeWaiting_addsNoFault {s t : State} (h : resumeWaiting s = .next t) : AddsNoFault s t := by
  intro r hr
  rcases resumeWaiting_next h with ⟨_, _, _, _, _, rfl⟩ | ⟨_, _, _, _, _, _, _, _, _, _, _, _, _, rfl⟩ <;>
    simpa [accepted] using hr

theorem finish_addsNoFault {s t : State} (h : finish s = .next t) : AddsNoFault s t := by
  obtain ⟨r, _, hresume⟩ := finish_next h
  have hok : AddsNoFault s (respond r .ok (release s)) := addsNoFault_of_answer (by decide) rfl
  exact hok.trans (resumeWaiting_addsNoFault hresume)

theorem nextPosition_addsNoFault {q : SeqPos} {s t : State} (h : nextPosition q s = .next t) : AddsNoFault s t := by
  rcases nextPosition_next h with ⟨_, rfl⟩ | ⟨_, _, rfl⟩ | ⟨_, _, hf⟩
  · exact addsNoFault_of_resp rfl
  · exact addsNoFault_of_resp rfl
  · exact finish_addsNoFault hf

theorem playHalf_addsNoFault {p : Pair} {last : Bool} {q : SeqPos} {s t : State} (hd : (draw s).1 = .ok)
    (h : playHalf p last q s = .next t) : AddsNoFault s t := by
  rcases playHalf_next h with ⟨hfail, _⟩ | ⟨_, _, rfl⟩ | ⟨_, _, _, rfl⟩ | ⟨_, _, _, hn⟩
  · cases hd.symm.trans hfail
  · exact addsNoFault_of_resp (by simp)
  · exact addsNoFault_of_resp (by simp)
  · exact (addsNoFault_of_resp (by simp)).trans (nextPosition_addsNoFault hn)

theorem playPairs_addsNoFault {pairs : List Pair} {s t : State} (hd : (draw s).1 = .ok)
    (h : playPairs pairs s = .next t) : AddsNoFault s t := by
  obtain ⟨q, _, ⟨_, hn⟩ | ⟨p, _, hhalf⟩⟩ := playPairs_next h
  · exact nextPosition_addsNoFault hn
  · exact playHalf_addsNoFault hd hhalf

/-- No instruction answers `HardwareFault` when the next draw succeeds. -/
theorem exec_addsNoFault {i : Instr} {s t : State} (hd : (draw s).1 = .ok) (h : exec i s = .next t) :
    AddsNoFault s t := by
  cases hrow : isSequencerRow i with
  | true => exact playPairs_addsNoFault hd ((exec_sequencerRow hrow s).symm.trans h)
  | false =>
    cases i with
    | txPT2260 g so d => exact submitProfile_addsNoFault h
    | txPT2262 g so d => exact submitProfile_addsNoFault h
    | txUnknown k g so d => cases h; exact addsNoFault_of_answer (by decide) rfl
    | sym0 | sym1 | symF | symRsv | sync => cases hrow

/-- Settles O32: a failed drive takes FAULT_EXIT, which alone answers `HardwareFault`. -/
theorem failedDriveExits : Obligations.FailedDriveExits := by
  constructor
  · intro i q r s hi hq hpair ho hd forced t
    have hrow : isSequencerRow i = true := by obtain rfl | rfl | rfl | rfl := hi <;> rfl
    have ht : faulted r s = t := by
      have hresp : forced.2.resp = s.resp := (draw_resp _).trans (draw_resp s)
      simp only [faulted, respond, release, t, ← hresp, forced]
      cases (draw (draw s).2).1 <;> rfl
    have hrun : exec i s = resumeWaiting t := ht ▸ exec_half_of_fail hrow hq hpair ho hd
    have htrace : t.trace = s.trace := (draw_trace _).trans (draw_trace s)
    have hwait : t.wait = s.wait := (draw_wait _).trans (draw_wait s)
    exact ⟨hrun, htrace, fun hw => hrun.trans (resumeWaiting_empty (hwait.trans hw))⟩
  · intro i s t hd h
    exact exec_addsNoFault hd h

end Sys2Proof.Machine
end

section
/-! Hazards (70_reset_and_hazards.md R265): what the changes of `GRANT` leave behind after a look, and a grant withdrawn
during a transmission, before its next drive or in its last hold. -/

namespace Sys2Proof.Machine

/-! ### The changes of `GRANT` that a look takes -/

/-- A look takes the changes that come first. -/
theorem look_of_cons {p : Platform} {cs : List Bool} {css : List (List Bool)} (h : p.grants = cs :: css) :
    p.look = { p with grant := cs.getLastD p.grant, grants := css } := by
  rw [Platform.look, h]

@[simp] theorem nextDraw_grants (p : Platform) : p.nextDraw.2.grants = p.grants := by
  rw [Platform.nextDraw]; split <;> rfl

/-- A draw takes the changes of `GRANT` that a look takes, and no more. -/
@[simp] theorem draw_grants (s : State) : (draw s).2.platform.grants = s.platform.look.grants := by
  rw [draw]
  split
  · rfl
  · exact nextDraw_grants _

theorem draw_grants_of_cons {s : State} {cs : List Bool} {css : List (List Bool)} (h : s.platform.grants = cs :: css) :
    (draw s).2.platform.grant = cs.getLastD s.platform.grant ∧ (draw s).2.platform.grants = css := by
  rw [draw_grant, draw_grants, look_of_cons h]
  exact ⟨rfl, rfl⟩

/-- RESUME_WAITING when the first look takes the grant away and it stays away: every held command is answered
`ResourceUnavailable` (44_transmitter.md R188). -/
theorem resumeWaiting_grantTaken {s : State} {cs : List Bool} {css : List (List Bool)} (hw : s.wait ≠ [])
    (hgrants : s.platform.grants = cs :: (List.replicate (s.wait.length - 1) [] ++ css))
    (htaken : cs.getLastD s.platform.grant = false) :
    ∃ (order : List (Requester × Command)) (choices : List Nat) (n : Nat), order.Perm s.wait ∧
      resumeWaiting s = .next { s with
        wait := [], choices := choices, choiceCount := n, platform := { s.platform with grant := false, grants := css },
        resp := s.resp ++ order.map fun e => (e.1, Result.resourceUnavailable) } := by
  obtain ⟨i, e, choices, n, hi, _, _, hno⟩ := resumeWaiting_round hw
  obtain ⟨hlt, he⟩ := List.getElem?_eq_some_iff.mp hi
  have hlook : s.platform.look =
      { s.platform with grant := false, grants := List.replicate (s.wait.length - 1) [] ++ css } := by
    rw [look_of_cons hgrants, htaken]
  have hungranted : s.platform.look.grant = false := by rw [hlook]
  obtain ⟨order, choices', n', hperm, hrest⟩ := resumeWaiting_ungranted (css := css)
    (s := respond e.1 .resourceUnavailable
      { s with wait := s.wait.eraseIdx i, choices := choices, choiceCount := n, platform := s.platform.look })
    hungranted (by simp [hlook, List.length_eraseIdx_of_lt hlt])
  refine ⟨e :: order, choices', n', (hperm.cons e).trans (he ▸ List.getElem_cons_eraseIdx_perm hlt), ?_⟩
  rw [hno hungranted, hrest]
  simp [respond, hlook]

/-! ### A grant withdrawn before a drive -/

/-- The sequencer's move at a half whose drive fails is FAULT_EXIT (60_exceptions.md R224). -/
theorem sequencerMove_of_fail {s : State} {r : Requester} (h : CoreInv s) (ht : s.txState = .transmitting)
    (ho : s.owner = some r) (hd : (draw s).1 = .fail) : sequencerMove s = resumeWaiting (faulted r s) := by
  obtain ⟨cw, q, p, hcw, hq, hp, _⟩ := h.pair_at_seq ht
  have howner : (drive q.phase s).2.owner = some r := (drive_owner ..).trans ho
  calc sequencerMove s
    _ = playPairs (codePairs (codeAt cw q)) s := by rw [sequencerMove_transmitting ht hq hcw, exec_codeAt]
    _ = playHalf p (decide ((codePairs (codeAt cw q)).length ≤ q.pair + 1)) q s := by simp only [playPairs, hq, hp]
    _ = faultExit (drive q.phase s).2 := playHalf_of_fail hd ..
    _ = resumeWaiting (faulted r s) := by rw [faultExit_of_owner howner, drive_drive, faulted]

/-- FAULT_EXIT looks at `GRANT` once after the failed drive: a grant taken away before the one and not given back before
the other is away when RESUME_WAITING begins. -/
theorem faulted_grant_away {s : State} {cs : List Bool} {css : List (List Bool)} (r : Requester)
    (hgrants : s.platform.grants = cs :: [] :: css) (htaken : cs.getLastD s.platform.grant = false) :
    (faulted r s).platform.grant = false ∧ (faulted r s).platform.grants = css := by
  obtain ⟨hgrant, hrest⟩ := draw_grants_of_cons hgrants
  obtain ⟨hgrant', hrest'⟩ := draw_grants_of_cons hrest
  exact ⟨hgrant'.trans (hgrant.trans htaken), hrest'⟩

/-- A grant withdrawn during a transmission ends it at the sequencer's next move. -/
theorem sequencerMove_of_withdrawn {s : State} {r : Requester} (h : CoreInv s) (ht : s.txState = .transmitting)
    (ho : s.owner = some r) (hwithdrawn : withdrawn true s.platform.changes = true) :
    ∃ t xs, sequencerMove s = .next t ∧ t.trace = s.trace ∧ t.resp = s.resp ++ (r, .hardwareFault) :: xs ∧
      ∀ cs css, s.platform.grants = cs :: (List.replicate (s.wait.length + 1) [] ++ css) → cs.getLastD true = false →
        t.txState = .idle ∧ t.wait = [] ∧ ∀ e ∈ s.wait, (e.1, .resourceUnavailable) ∈ xs := by
  have hgrant : s.platform.grant = true := h.granted ht
  have hlost : grantLost s = true := by simp [grantLost, ht, hgrant, hwithdrawn]
  have hmove := sequencerMove_of_fail h ht ho (congrArg Prod.fst (draw_lost hlost))
  have hfaulted : (faulted r s).trace = s.trace ∧ (faulted r s).wait = s.wait ∧
      (faulted r s).resp = s.resp ++ [(r, .hardwareFault)] := by simp [faulted]
  obtain ⟨htrace, hwait, hresp⟩ := hfaulted
  obtain ⟨t, hnext, _⟩ := sequencerMove_continues h
  have hresume : resumeWaiting (faulted r s) = .next t := hmove.symm.trans hnext
  have hgrows := resumeWaiting_respGrows hresume
  obtain ⟨xs, hxs⟩ := hgrows.resp
  refine ⟨t, xs, hnext, hgrows.trace.trans htrace, by rw [← hxs, hresp, List.append_assoc, List.singleton_append], ?_⟩
  intro cs css hgrants htaken
  obtain ⟨haway, hrest⟩ := faulted_grant_away r hgrants (hgrant ▸ htaken)
  obtain ⟨order, _, _, hperm, hrun⟩ := resumeWaiting_ungranted haway (hwait.symm ▸ hrest)
  cases hresume.symm.trans hrun
  obtain rfl := List.append_cancel_left hxs
  exact ⟨rfl, rfl, fun e he => List.mem_map_of_mem (hperm.mem_iff.mpr (hwait.symm ▸ he))⟩

/-- When the sequencer moves next, the step is its move with some rest of the schedule. -/
theorem step_eq_sequencerMove {s : State} (he : s.events = [] ∨ ∃ es, s.events = .sequencer :: es) :
    ∃ es, step s = sequencerMove { s with events := es } := by
  obtain he | ⟨es, he⟩ := he
  · exact ⟨s.events, step_of_empty he⟩
  · exact ⟨es, step_of_sequencer he⟩

/-- Settles O33: a withdrawal fails the draw that looks at `GRANT` next, and the sequencer's move is then FAULT_EXIT. -/
theorem withdrawnGrantEndsTransmission : Obligations.WithdrawnGrantEndsTransmission := by
  refine ⟨fun l s hduty => ?_, fun l s ht hwithdrawn => ?_, fun s r h ht ho he hwithdrawn => ?_⟩
  · have hkept : grantLost s = false := by simpa [platformDutyKept] using hduty
    rw [drive_result, draw_kept hkept]
  · have hlost : grantLost s = true := by simp [grantLost, ht, hwithdrawn]
    rw [drive_result, draw_lost hlost]
  · obtain ⟨es, hstep⟩ := step_eq_sequencerMove he
    rw [hstep]
    exact sequencerMove_of_withdrawn (s := { s with events := es }) (h.untouched ..) ht ho hwithdrawn

/-- Settles O34: FINISH answers `Ok` without a drive, and the first look of RESUME_WAITING takes the grant away. -/
theorem grantLostInLastHold : Obligations.GrantLostInLastHold := by
  intro rep r s css hq hrep ho _ hw hgrants hd
  obtain ⟨_, hrest⟩ := draw_grants_of_cons hgrants
  obtain ⟨hfinish, _⟩ := finishAnswersOk rep r s hq hrep ho hd
  have hwait : (draw s).2.wait = s.wait := draw_wait s
  obtain ⟨order, _, _, hperm, hrun⟩ := resumeWaiting_grantTaken (cs := [false]) (css := css)
    (s := { (draw s).2 with
      line := .low, trace := s.trace ++ [⟨.low, 31 * s.config.pUs⟩], txState := .idle, req := none, cw := none,
      seq := none, owner := none, resp := s.resp ++ [(r, .ok)] })
    (hwait.symm ▸ hw) (hwait.symm ▸ hrest) rfl
  exact ⟨order, _, hwait ▸ hperm, hfinish.trans hrun, rfl, rfl, rfl, rfl, List.append_assoc ..⟩

end Sys2Proof.Machine
end

section
/-! Reset between steps and inside a hold, and construction (70_reset_and_hazards.md R260 to R263). -/

namespace Sys2Proof.Machine

/-- RESET field by field: a draw, the line, and the values of a core that is `Idle` and holds nothing. -/
theorem resetCore_eq_draw (s : State) :
    resetCore s = { (draw s).2 with
      line := lineAfter .low (draw s).1, txState := .idle, req := none, cw := none, seq := none, owner := none,
      wait := [] } := rfl

theorem step_of_reset {s : State} {es : List Event} (he : s.events = .reset :: es) :
    step s = .next (resetCore { s with events := es }) := by
  rw [step, nextMove, he]
  rfl

theorem step_of_resetInHold {s : State} {es : List Event} (he : s.events = .resetInHold :: es) :
    step s = resetInHold { s with events := es } := by
  rw [step, nextMove, he]
  rfl

/-- Settles O36: the step is RESET, whose line is the one after a drive low. -/
theorem resetRule : Obligations.ResetRule := by
  intro s es he
  rw [step_of_reset he, resetCore_eq_draw]
  cases (draw { s with events := es }).1 <;> rfl

/-- A reset inside the hold of a half whose drive succeeded comes right after that drive. -/
theorem resetInHold_of_ok {s : State} (h : CoreInv s) (ht : s.txState = .transmitting) (hd : (draw s).1 = .ok) :
    ∃ l, resetInHold s = .next (resetCore (drive l s).2) := by
  obtain ⟨cw, q, p, hcw, hq, hp, _⟩ := h.pair_at_seq ht
  have hdrive : drive q.phase s = (.ok, (drive q.phase s).2) := Prod.ext hd rfl
  refine ⟨q.phase, ?_⟩
  simp only [resetInHold, ht, fetchCode_eq hq hcw, hq, hp]
  rw [hdrive]

/-- Settles O37: neither the drive of the half nor that of RESET writes a history. -/
theorem resetInHoldAborts : Obligations.ResetInHoldAborts := by
  intro s es h ht he hd
  have hd' : (draw { s with events := es }).1 = .ok :=
    (draw_congr (s := { s with events := es }) (s' := s) rfl rfl).1.trans hd
  obtain ⟨l, hreset⟩ := resetInHold_of_ok (s := { s with events := es }) (h.untouched ..) ht hd'
  refine ⟨_, (step_of_resetInHold he).trans hreset, rfl, ?_, ?_, rfl, rfl, rfl, rfl, rfl, lineAfter_low_ne_high _, ?_⟩ <;>
    simp [resetCore]

/-! ### Construction -/

theorem mem_configCheck_all (k : ConfigCheck) : k ∈ ConfigCheck.all := by cases k <;> decide

/-- Settles O38: the search for a failing check runs over all of them. -/
theorem constructionChecksConfiguration : Obligations.ConstructionChecksConfiguration := by
  refine fun c res => ⟨fun hpass => ?_, fun k hk => ?_⟩
  · have hnone : c.firstFailure = none := List.find?_eq_none.mpr fun k _ => by simp [hpass k]
    rw [construct, hnone]
  · cases hfirst : c.firstFailure with
    | none =>
      have hpass := List.find?_eq_none.mp hfirst k (mem_configCheck_all k)
      simp [hk] at hpass
    | some k' =>
      have hfails := List.find?_some hfirst
      exact ⟨k', by simpa using hfails, by rw [construct, hfirst]⟩

end Sys2Proof.Machine
end
